-- ==== Sys2Proof/Word.lean ====
section
/-!
DEFINITION. The word types of the compensation unit (CU).
A command is one 32-bit word (30_encoding.md R45); the receive buffer holds 8-bit bytes (20_memory.md R30).
-/
namespace Sys2Proof

/-- One byte of the receive buffer, and the width of the operand fields `off` and `imm8` (30_encoding.md R46). -/
abbrev Byte := BitVec 8

/-- One command word, a number on the port `CMD` with no byte order (20_memory.md R32, 30_encoding.md R45). -/
abbrev Word := BitVec 32

end Sys2Proof
end

