-- ==== Sys2Proof/Syntax.lean ====
section
/-!
DEFINITION. The commands of the CU: one constructor per row of the opcode map (30_encoding.md R49).
`ASM` has three rows, one per legal value of its quantity selector.
-/
namespace Sys2Proof

/-- The commands, with the operand fields of 30_encoding.md R46 and R48. `off` is an unsigned buffer offset, `imm8`
the byte to store; no other operand form exists. -/
inductive Instr where
  /-- `NOP` -/
  | nop
  /-- `OPEN` -/
  | openSession
  /-- `CLOSE` -/
  | closeSession
  /-- `RXB off, imm8` -/
  | rxb (off imm8 : Byte)
  /-- `RXCLR` -/
  | rxclr
  /-- `LDCAL off` -/
  | ldcal (off : Byte)
  /-- `ASM.T off` -/
  | asmT (off : Byte)
  /-- `ASM.P off` -/
  | asmP (off : Byte)
  /-- `ASM.H off` -/
  | asmH (off : Byte)
  /-- `COMPT` -/
  | compT
  /-- `COMPP` -/
  | compP
  /-- `COMPH` -/
  | compH
deriving DecidableEq, Repr

end Sys2Proof
end

