-- ==== Sys2Proof/WellFormed.lean ====
section
/-!
DEFINITION. Source lines of the assembler and the check that decides which of them are well formed.
A decoded command cannot be ill-formed: its operands are bytes by type. What can be ill-formed is a line of source,
whose operands are numbers: "The assembler refuses `off` or `byte` outside 0 .. 255" (30_encoding.md R54). The
pseudo-instructions of R55 exist only here.
-/
namespace Sys2Proof

/-- The quantity of a `SAMPLE.q` or `ASM.q` line (30_encoding.md R46, R55). -/
inductive Quantity where
  | temperature
  | pressure
  | humidity
deriving DecidableEq, Repr

/-- One line of source: the twelve forms of 30_encoding.md R54 and the four pseudo-instructions of R55. -/
inductive AsmLine where
  | nop
  | openSession
  | closeSession
  | rxb (off byte : Nat)
  | rxclr
  | ldcal (off : Nat)
  | asm (q : Quantity) (off : Nat)
  | compT
  | compP
  | compH
  | rxburst (off : Nat) (bytes : List Nat)
  | loadcal (bytes : List Nat)
  | sample (q : Quantity) (m l x : Nat)
  | measureT (m l x : Nat)
deriving DecidableEq, Repr

/-- A number fits an operand field (30_encoding.md R54). -/
def fitsByte (n : Nat) : Bool := n < 256

/-- Which source lines the assembler accepts for a CU with `CAL_LEN = calLen`: every offset and every byte is in
0 .. 255, the offsets of an expansion included, and `LOADCAL` has `CAL_LEN` bytes (30_encoding.md R54, R55).
`off` is not checked against `BUF_SIZE`: that is the CU's `E_RANGE`. -/
def AsmLine.wellFormed (calLen : Nat) : AsmLine → Bool
  | .nop | .openSession | .closeSession | .rxclr | .compT | .compP | .compH => true
  | .rxb off byte => fitsByte off && fitsByte byte
  | .ldcal off => fitsByte off
  | .asm _ off => fitsByte off
  | .rxburst off bytes => !bytes.isEmpty && bytes.all fitsByte && off + bytes.length ≤ 256
  | .loadcal bytes => bytes.length = calLen && !bytes.isEmpty && bytes.all fitsByte && bytes.length ≤ 256
  | .sample _ m l x => fitsByte m && fitsByte l && fitsByte x
  | .measureT m l x => fitsByte m && fitsByte l && fitsByte x

end Sys2Proof
end

