-- ==== Sys2Proof/Decode.lean ====
section
/-!
DEFINITION. The opcode map, the decoder and the encoder (30_encoding.md R45 to R56).
The decoder is total on all 2^32 words and rejects by name; it reads no state and no parameter (R50).
-/
namespace Sys2Proof

/-! ### Fields of a command word (R46) -/

/-- `op = word[31:28]`. -/
def opField (w : Word) : BitVec 4 := w.extractLsb' 28 4
/-- `q = word[25:24]`. -/
def qField (w : Word) : BitVec 2 := w.extractLsb' 24 2
/-- `off = word[15:8]` (R48: used as is). -/
def offField (w : Word) : Byte := w.extractLsb' 8 8
/-- `imm8 = word[7:0]`. -/
def immField (w : Word) : Byte := w.extractLsb' 0 8

/-! ### The opcode map (R49) -/

/-- One row of the opcode map: a word `w` is the command exactly when `(w & mask) = pattern`. -/
structure OpcodeRow where
  pattern : Word
  mask : Word
  /-- The row's command with its operand fields still zero. -/
  command : Instr
deriving DecidableEq, Repr

/-- The twelve rows of 30_encoding.md R49, in its order. -/
def opcodeMap : List OpcodeRow :=
  [ { pattern := 0x10000000, mask := 0xFFFFFFFF, command := .nop },
    { pattern := 0x20000000, mask := 0xFFFFFFFF, command := .openSession },
    { pattern := 0x30000000, mask := 0xFFFFFFFF, command := .closeSession },
    { pattern := 0x40000000, mask := 0xFFFF0000, command := .rxb 0 0 },
    { pattern := 0x50000000, mask := 0xFFFFFFFF, command := .rxclr },
    { pattern := 0x60000000, mask := 0xFFFF00FF, command := .ldcal 0 },
    { pattern := 0x70000000, mask := 0xFFFF00FF, command := .asmT 0 },
    { pattern := 0x71000000, mask := 0xFFFF00FF, command := .asmP 0 },
    { pattern := 0x72000000, mask := 0xFFFF00FF, command := .asmH 0 },
    { pattern := 0x80000000, mask := 0xFFFFFFFF, command := .compT },
    { pattern := 0x90000000, mask := 0xFFFFFFFF, command := .compP },
    { pattern := 0xA0000000, mask := 0xFFFFFFFF, command := .compH } ]

/-- A command with its operand fields filled in from `off` and `imm8` (R50, second line). -/
def withOperands (i : Instr) (off imm8 : Byte) : Instr :=
  match i with
  | .nop => .nop
  | .openSession => .openSession
  | .closeSession => .closeSession
  | .rxb _ _ => .rxb off imm8
  | .rxclr => .rxclr
  | .ldcal _ => .ldcal off
  | .asmT _ => .asmT off
  | .asmP _ => .asmP off
  | .asmH _ => .asmH off
  | .compT => .compT
  | .compP => .compP
  | .compH => .compH

/-! ### Decoding (R50) and the illegal words (R51) -/

/-- Why a word is `ILLEGAL`: the four kinds of 30_encoding.md R51. Every one of them executes as `E_ILLEGAL`. -/
inductive IllegalWord where
  /-- (a) `op` in `0xB .. 0xE`, reserved for later versions. -/
  | reservedOp
  /-- (b) `op = 0x0` or `op = 0xF`, illegal in every version. -/
  | neverLegal
  /-- (c) a defined `op` with a "must be 0" bit set. -/
  | mustBeZero
  /-- (d) `op = 0x7` with `q = 11`. -/
  | reservedQuantity
deriving DecidableEq, Repr

/-- The kind of a word that matches no row (R51). A word that is both (c) and (d) is named (d). -/
def illegalKind (w : Word) : IllegalWord :=
  if opField w = 0x0 ∨ opField w = 0xF then .neverLegal
  else if opField w = 0xB ∨ opField w = 0xC ∨ opField w = 0xD ∨ opField w = 0xE then .reservedOp
  else if opField w = 0x7 ∧ qField w = 3 then .reservedQuantity
  else .mustBeZero

/-- `decode` (30_encoding.md R50): the first row of the map that the word matches, with its operands. -/
def decode (w : Word) : Except IllegalWord Instr :=
  match opcodeMap.find? (fun r => w &&& r.mask = r.pattern) with
  | some r => .ok (withOperands r.command (offField w) (immField w))
  | none => .error (illegalKind w)

/-- The bits that must be 0 in a command with opcode `op`, by its format (30_encoding.md R47, R49): formats N, B, O, Q.
For an `op` that names no command there is none. -/
def mustBeZeroMask (op : BitVec 4) : Word :=
  if op = 0x1 ∨ op = 0x2 ∨ op = 0x3 ∨ op = 0x5 ∨ op = 0x8 ∨ op = 0x9 ∨ op = 0xA then 0x0FFFFFFF
  else if op = 0x4 then 0x0FFF0000
  else if op = 0x6 then 0x0FFF00FF
  else if op = 0x7 then 0x0CFF00FF
  else 0

/-! ### Encoding (R46, R47, R54) -/

/-- A command word from its fields, `{op, z1, q, z2, off, imm8}` with `z1` and `z2` zero (30_encoding.md R46). -/
def packFields (op : BitVec 4) (q : BitVec 2) (off imm8 : Byte) : Word :=
  op ++ (0 : BitVec 2) ++ q ++ (0 : BitVec 8) ++ off ++ imm8

/-- The word of a command (30_encoding.md R47, R54). -/
def encode : Instr → Word
  | .nop => packFields 0x1 0 0 0
  | .openSession => packFields 0x2 0 0 0
  | .closeSession => packFields 0x3 0 0 0
  | .rxb off imm8 => packFields 0x4 0 off imm8
  | .rxclr => packFields 0x5 0 0 0
  | .ldcal off => packFields 0x6 0 off 0
  | .asmT off => packFields 0x7 0 off 0
  | .asmP off => packFields 0x7 1 off 0
  | .asmH off => packFields 0x7 2 off 0
  | .compT => packFields 0x8 0 0 0
  | .compP => packFields 0x9 0 0 0
  | .compH => packFields 0xA 0 0 0

/-- The command the decoder reads from a word whose `nbits` low bits are those of `w` and whose other bits are 0.
A command is one 32-bit number (30_encoding.md R45), so a longer pattern is no command. -/
def decodeTableWord (nbits w : Nat) : Option Instr :=
  if w % 2 ^ nbits < 2 ^ 32 then
    match decode (BitVec.ofNat 32 (w % 2 ^ nbits)) with
    | .ok i => some i
    | .error _ => none
  else none

end Sys2Proof
end

