-- ==== Sys2Proof/Config.lean ====
section
/-!
DEFINITION. The parameters of the CU (00_scope.md R4) and its two uninterpreted functions (42_compensation.md R93).
-/
namespace Sys2Proof

/-- The parameters of 00_scope.md R4 that are data. They are fixed for the life of the hardware (10_state.md R23). -/
structure Params where
  /-- `BUF_SIZE`: number of bytes in the receive buffer. -/
  bufSize : Nat
  /-- `CAL_LEN`: number of bytes `LDCAL` takes. -/
  calLen : Nat
  /-- `HAS_P`: pressure compensation is implemented. -/
  hasP : Bool
  /-- `HAS_H`: humidity compensation is implemented. -/
  hasH : Bool
deriving DecidableEq, Repr

/-- The defaults of 00_scope.md R4. -/
def Params.default : Params := { bufSize := 8, calLen := 6, hasP := false, hasH := false }

/-- The constraints of 00_scope.md R4: `6 <= CAL_LEN <= BUF_SIZE <= 256`. -/
structure Params.Valid (p : Params) : Prop where
  calLen_min : 6 ≤ p.calLen
  calLen_fits : p.calLen ≤ p.bufSize
  bufSize_max : p.bufSize ≤ 256

/-- The 64-bit pattern of `CompP(raw, coefx, fine)` (42_compensation.md R91, R93): a total function of its three
arguments of which the spec assumes nothing else. It has no body, so nothing can be proved of its values
(log entry 3). -/
opaque Config.compP : BitVec 20 → List Byte → BitVec 32 → BitVec 64

/-- The 64-bit pattern of `CompH(raw, coefx, fine)` (42_compensation.md R92, R93), as `Config.compP`. -/
opaque Config.compH : BitVec 20 → List Byte → BitVec 32 → BitVec 64

end Sys2Proof
end

