-- ==== Sys2Proof/Machine/State.lean ====
section
/-!
DEFINITION. The state of the CU (10_state.md), plain data.
`NOVAL` (00_scope.md R6) is the spec's own "holds no value": a register that can be `NOVAL` is an `Option`, as
10_state.md R26 and 93_implementation_defined.md V5 ask of a model, and its valid flag is read off it, because R16
defines the flag as "1 exactly when its register holds a value" (log entry 4).
-/
namespace Sys2Proof.Machine

/-- The coefficient table: `T1` (u16), `T2`, `T3` (s16, two's complement) and the opaque bytes `COEFX`
(10_state.md R11, R12). -/
structure Coeffs where
  t1 : BitVec 16
  t2 : BitVec 16
  t3 : BitVec 16
  coefx : List Byte
deriving DecidableEq, Repr

/-- The session state `SESS` (10_state.md R15). The coefficient table holds values exactly when `SESS = Ready`
(R11, R25 I-b), so it stands in that constructor. The encoding `11` is never produced (V3): there is no fourth. -/
inductive Session where
  | closed
  | configuring
  | ready (table : Coeffs)
deriving DecidableEq, Repr

/-- The status codes that a command can leave in `STATUS.LAST` (60_exceptions.md R104). Codes 10 to 15 are never
produced (V4). -/
inductive StatusCode where
  /-- 0 `OK` -/
  | ok
  /-- 1 `E_ILLEGAL` -/
  | illegal
  /-- 2 `E_NOTREADY` -/
  | notReady
  /-- 3 `E_OPENED` -/
  | opened
  /-- 4 `E_LOCKED` -/
  | locked
  /-- 5 `E_RANGE` -/
  | range
  /-- 6 `E_STALE` -/
  | stale
  /-- 7 `E_NOSAMPLE` -/
  | noSample
  /-- 8 `E_NOFINE` -/
  | noFine
  /-- 9 `E_UNIMPL` -/
  | unimpl
deriving DecidableEq, Repr

/-- One input of the host: a word on the port `CMD`, or the `RESET` input (10_state.md R26). -/
inductive HostInput where
  | command (w : Word)
  | reset
deriving DecidableEq, Repr

/-- Reasons for which the machine stops with a fault: NONE. Every fault of the spec is a status code after which the
CU takes the next command (60_exceptions.md R103, R105), hence a next state, and no command hangs
(70_reset_and_hazards.md R135). -/
inductive Fault where
deriving DecidableEq, Repr

/-- Reasons for which a command is refused. -/
inductive Refusal where
  /-- Raised by an arm of `exec` whose command has no meaning yet (safe: the model stops). No arm raises it now. -/
  | notModelled (mnemonic : String)
deriving DecidableEq, Repr

/-- The state of the CU, and beside it two fields of the model's own, `params` and `inputs` (log entries 1 and 2). -/
structure State where
  /-- The parameters of 00_scope.md R4. No step writes them. -/
  params : Params
  /-- The host's inputs still to come, the next one first (10_state.md R20: the model's bookkeeping, not CU state). -/
  inputs : List HostInput
  /-- `SESS` (R15), with `T1`, `T2`, `T3`, `COEFX` (R11, R12) while it is Ready. -/
  sess : Session
  /-- `RAW_T` (R13) with its flag `RV_T`. -/
  rawT : Option (BitVec 20)
  /-- `RAW_P` (R13) with its flag `RV_P`. -/
  rawP : Option (BitVec 20)
  /-- `RAW_H` (R13) with its flag `RV_H`. -/
  rawH : Option (BitVec 20)
  /-- `FINE` (R14), two's complement, with its flag `FV`. -/
  fine : Option (BitVec 32)
  /-- `OUT_T` (R18), a binary64 pattern, with its flag `OV_T`. -/
  outT : Option (BitVec 64)
  /-- `OUT_P` (R18) with its flag `OV_P`. -/
  outP : Option (BitVec 64)
  /-- `OUT_H` (R18) with its flag `OV_H`. -/
  outH : Option (BitVec 64)
  /-- `STATUS.LAST` (R19). -/
  last : StatusCode
  /-- `STATUS.ERR` (R19), sticky. -/
  err : Bool
  /-- `BUF` with its bits `BV` (R21, R22): the offsets that hold a value, strictly rising, each with its byte. -/
  buf : List Host.Cell
deriving DecidableEq, Repr

/-- The state right after reset (10_state.md R24), for the default parameters of 00_scope.md R4 and with no input of
the host waiting. -/
def State.reset : State where
  params := Params.default
  inputs := []
  sess := .closed
  rawT := none
  rawP := none
  rawH := none
  fine := none
  outT := none
  outP := none
  outH := none
  last := .ok
  err := false
  buf := []

end Sys2Proof.Machine
end

