-- ==== Sys2Proof/Machine/Ops.lean ====
section
/-!
DEFINITION. The named operations over buffer, status and session that every command is written with.
-/
namespace Sys2Proof.Machine

/-- What one step of the CU answers. -/
abbrev Answer := Host.Outcome State Fault Refusal

/-! ### The receive buffer as a list of cells (20_memory.md R30) -/

/-- The canonical form: strictly rising offsets. A listed offset holds a value and an unlisted one holds none, so no
entry equals what an unlisted offset reads as. -/
abbrev Memory.wf (m : List Host.Cell) : Prop := m.Pairwise (fun c d => c.1 < d.1)

/-- `BUF[a]` where `BV[a] = 1`; `none` (`NOVAL`) where `BV[a] = 0`. -/
def byteAt : List Host.Cell → Nat → Option Byte
  | [], _ => none
  | c :: m, a => if c.1 = a then some c.2 else byteAt m a

/-- `[BUF[a], ..., BUF[a+n-1]]`, or `none` when one of them holds no value. -/
def bytesAt (m : List Host.Cell) : Nat → Nat → Option (List Byte)
  | _, 0 => some []
  | a, n + 1 => do
    let b ← byteAt m a
    let bs ← bytesAt m (a + 1) n
    pure (b :: bs)

/-- `BUF[a] <- v ; BV[a] <- 1`, keeping the canonical form. -/
def putByte : List Host.Cell → Nat → Byte → List Host.Cell
  | [], a, v => [(a, v)]
  | c :: m, a, v =>
    if a < c.1 then (a, v) :: c :: m
    else if a = c.1 then (a, v) :: m
    else c :: putByte m a v

/-- `BV[a+i] <- 0` and `BUF[a+i] <- NOVAL` for `i` in `0 .. n-1`. -/
def dropBytes (m : List Host.Cell) (a n : Nat) : List Host.Cell :=
  m.filter (fun c => !(a ≤ c.1 && c.1 < a + n))

/-! ### The access primitives (20_memory.md R34 to R36) -/

/-- `MemRead(a, n)` (R34): range first, then validity. -/
def State.memRead (s : State) (a n : Nat) : Except StatusCode (List Byte) :=
  if a + n > s.params.bufSize then .error .range
  else
    match bytesAt s.buf a n with
    | some b => .ok b
    | none => .error .stale

/-- `MemWrite(a, 1, v)` (R35). -/
def State.memWrite (s : State) (a : Nat) (v : Byte) : Except StatusCode State :=
  if a + 1 > s.params.bufSize then .error .range
  else .ok { s with buf := putByte s.buf a v }

/-- `MemInvalidate(a, n)` (R36). -/
def State.memInvalidate (s : State) (a n : Nat) : State :=
  { s with buf := dropBytes s.buf a n }

/-! ### How a command ends (60_exceptions.md R105, 40_buffer.md R60) -/

/-- Fault entry, `raise E_x`: `STATUS.LAST <- E_x ; STATUS.ERR <- 1` and nothing else (R105). There is no return from
it: the next command starts under the ordinary rules (R117). -/
def State.raise (s : State) (e : StatusCode) : State :=
  { s with last := e, err := true }

/-- `done`: `STATUS.LAST <- OK`, `ERR` as it was (R6, R60). -/
def State.complete (s : State) : State :=
  { s with last := .ok }

/-- The end of every command started in `s`: its fault is raised on `s` itself, so that partial work is discarded
(R105), and its success completes the state it computed. -/
def State.finish (s : State) (r : Except StatusCode State) : Answer :=
  match r with
  | .error e => .next (s.raise e)
  | .ok t => .next t.complete

/-- A word that `decode` maps to `ILLEGAL` executes as `raise E_ILLEGAL` (30_encoding.md R51, 60_exceptions.md R106). -/
def execIllegal (s : State) : Answer :=
  s.finish (.error .illegal)

/-! ### Measurement cycle and session (10_state.md R17, 43_session.md R97) -/

/-- A new measurement cycle begins: `FV`, `OV_T`, `OV_P`, `OV_H` become 0 and their registers `NOVAL` (10_state.md R17). -/
def State.newCycle (s : State) : State :=
  { s with fine := none, outT := none, outP := none, outH := none }

/-- Everything the session owned is forgotten (43_session.md R97, all of `CLOSE` but `done`). -/
def State.forgetSession (s : State) : State :=
  { s.newCycle.memInvalidate 0 s.params.bufSize with
    sess := .closed, rawT := none, rawP := none, rawH := none }

/-! ### The host's inputs (10_state.md R20, R26; 70_reset_and_hazards.md R122) -/

/-- The effect of the `RESET` input: every piece of CU state as in `State.reset` (10_state.md R24). The parameters are
the hardware's (R23) and the inputs still to come are the host's, so both stay. -/
def State.applyReset (s : State) : State :=
  { State.reset with params := s.params, inputs := s.inputs }

/-- The state with the first of the host's inputs taken. -/
def State.dropInput (s : State) : State :=
  { s with inputs := s.inputs.tail }

/-- The state with `w` presented as the host's next command. -/
def State.present (s : State) (w : Word) : State :=
  { s with inputs := .command w :: s.inputs }

end Sys2Proof.Machine
end

