-- ==== Sys2Proof/Machine/Operands.lean ====
section
/-!
DEFINITION. The operand forms: the offset of a command word, the guards under which a command reads a register
(each raises its fault where the spec says the register may not be read), and the assembly of bytes into the typed
integers `u16`, `s16` and `u20` (41_decode.md).
-/
namespace Sys2Proof.Machine

/-! ### The offset -/

/-- `off` as an offset: zero-extended and used as is (30_encoding.md R48). -/
def offset (off : Byte) : Nat := off.toNat

/-! ### Guards, in the order of 60_exceptions.md R115 -/

/-- `if SESS = Closed then raise E_NOTREADY` (40_buffer.md R61, R62). -/
def State.requireSession (s : State) : Except StatusCode Unit :=
  match s.sess with
  | .closed => .error .notReady
  | .configuring => .ok ()
  | .ready _ => .ok ()

/-- `if SESS != Ready then raise E_NOTREADY`; otherwise the coefficient table, which Ready holds (10_state.md R11). -/
def State.requireReady (s : State) : Except StatusCode Coeffs :=
  match s.sess with
  | .closed => .error .notReady
  | .configuring => .error .notReady
  | .ready table => .ok table

/-- `if SESS = Closed then raise E_NOTREADY ; if SESS = Ready then raise E_LOCKED` (41_decode.md R65). -/
def State.requireConfiguring (s : State) : Except StatusCode Unit :=
  match s.sess with
  | .closed => .error .notReady
  | .configuring => .ok ()
  | .ready _ => .error .locked

/-- `if SESS != Closed then raise E_OPENED` (43_session.md R96). -/
def State.requireClosed (s : State) : Except StatusCode Unit :=
  match s.sess with
  | .closed => .ok ()
  | .configuring => .error .opened
  | .ready _ => .error .opened

/-- `if not HAS_q then raise E_UNIMPL` (42_compensation.md R91, R92). -/
def requireFeature (has : Bool) : Except StatusCode Unit :=
  if has then .ok () else .error .unimpl

/-- `if RV_q = 0 then raise E_NOSAMPLE`; otherwise `RAW_q` (60_exceptions.md R112). -/
def requireSample (raw : Option (BitVec 20)) : Except StatusCode (BitVec 20) :=
  match raw with
  | none => .error .noSample
  | some r => .ok r

/-- `if FV = 0 then raise E_NOFINE`; otherwise `FINE` (60_exceptions.md R113). -/
def State.requireFine (s : State) : Except StatusCode (BitVec 32) :=
  match s.fine with
  | none => .error .noFine
  | some f => .ok f

/-! ### Bytes to integers (41_decode.md R65 to R68) -/

/-- Byte `i` of a list that `MemRead` returned. The list has as many bytes as were asked for
(`bytesAt_length`), so the default is reached by no access of the spec. -/
def nthByte (b : List Byte) (i : Nat) : Byte := b.getD i 0

/-- `lo | (hi << 8)` (R65, R67): a little-endian pair. `T1` reads it unsigned, `T2` and `T3` as two's complement. -/
def le16 (lo hi : Byte) : BitVec 16 := lo.setWidth 16 ||| hi.setWidth 16 <<< 8

/-- `(msb << 12) | (lsb << 4) | (xlsb >> 4)`, a `u20` (R66, R68). -/
def raw20 (msb lsb xlsb : Byte) : BitVec 20 :=
  msb.setWidth 20 <<< 12 ||| lsb.setWidth 20 <<< 4 ||| xlsb.setWidth 20 >>> 4

/-- The coefficient table that `CAL_LEN` calibration bytes give (R65). -/
def decodeTable (b : List Byte) : Coeffs where
  t1 := le16 (nthByte b 0) (nthByte b 1)
  t2 := le16 (nthByte b 2) (nthByte b 3)
  t3 := le16 (nthByte b 4) (nthByte b 5)
  coefx := b.drop 6

end Sys2Proof.Machine
end

