-- ==== Sys2Proof/Machine/BufferCommands.lean ====
section
/-!
DEFINITION. The buffer commands `RXB`, `RXCLR` (40_buffer.md).
-/
namespace Sys2Proof.Machine

/-- `RXB off, imm8` (R61): `BUF[off] <- imm8 ; BV[off] <- 1`. -/
def execRxb (off imm8 : Byte) (s : State) : Answer :=
  s.finish do
    s.requireSession
    s.memWrite (offset off) imm8

/-- `RXCLR` (R62): every byte of the buffer is invalidated. -/
def execRxclr (s : State) : Answer :=
  s.finish do
    s.requireSession
    pure (s.memInvalidate 0 s.params.bufSize)

end Sys2Proof.Machine
end

