-- ==== Sys2Proof/Machine/Flags.lean ====
section
/-!
DEFINITION. The valid flags (10_state.md R16), the codes of `SESS` and `LAST`, the word `STATUS` (R19), the output
ports (R26) and the observation at the end of a run (70_reset_and_hazards.md R136).
There are no arithmetic condition codes and no floating-point exception flags (R16, 42_compensation.md R84).
-/
namespace Sys2Proof.Machine

/-! ### Valid flags: 1 exactly when the register holds a value (R16) -/

/-- `RV_T`. -/
def State.rvT (s : State) : Bool := s.rawT.isSome
/-- `RV_P`. -/
def State.rvP (s : State) : Bool := s.rawP.isSome
/-- `RV_H`. -/
def State.rvH (s : State) : Bool := s.rawH.isSome
/-- `FV`. -/
def State.fv (s : State) : Bool := s.fine.isSome
/-- `OV_T`. -/
def State.ovT (s : State) : Bool := s.outT.isSome
/-- `OV_P`. -/
def State.ovP (s : State) : Bool := s.outP.isSome
/-- `OV_H`. -/
def State.ovH (s : State) : Bool := s.outH.isSome
/-- `BV[a]`, hidden (R22): no port shows it. -/
def State.bv (s : State) (a : Nat) : Bool := (byteAt s.buf a).isSome

/-! ### Codes -/

/-- The two bits of `SESS` (R15). -/
def Session.code : Session → BitVec 2
  | .closed => 0
  | .configuring => 1
  | .ready _ => 2

/-- The four bits of `LAST` (60_exceptions.md R104). -/
def StatusCode.code : StatusCode → BitVec 4
  | .ok => 0
  | .illegal => 1
  | .notReady => 2
  | .opened => 3
  | .locked => 4
  | .range => 5
  | .stale => 6
  | .noSample => 7
  | .noFine => 8
  | .unimpl => 9

/-! ### The status word and the ports -/

/-- `STATUS` (R19), bit 31 first: 15 reserved bits, `ERR`, `LAST`, 3 reserved bits, `OV_H`, `OV_P`, `OV_T`, `FV`,
`RV_H`, `RV_P`, `RV_T`, `SESS`. Reserved bits read 0. -/
def State.statusWord (s : State) : BitVec 32 :=
  (0 : BitVec 15) ++ BitVec.ofBool s.err ++ s.last.code ++ (0 : BitVec 3)
    ++ BitVec.ofBool s.ovH ++ BitVec.ofBool s.ovP ++ BitVec.ofBool s.ovT ++ BitVec.ofBool s.fv
    ++ BitVec.ofBool s.rvH ++ BitVec.ofBool s.rvP ++ BitVec.ofBool s.rvT ++ s.sess.code

/-- What the output ports carry (R26). A port whose valid flag is 0 carries no value. -/
structure Ports where
  status : BitVec 32
  outT : Option (BitVec 64)
  outP : Option (BitVec 64)
  outH : Option (BitVec 64)
  fine : Option (BitVec 32)
  rawT : Option (BitVec 20)
  rawP : Option (BitVec 20)
  rawH : Option (BitVec 20)
deriving DecidableEq, Repr

/-- The output ports (R26). Reading them has no side effect. -/
def State.ports (s : State) : Ports where
  status := s.statusWord
  outT := s.outT
  outP := s.outP
  outH := s.outH
  fine := s.fine
  rawT := s.rawT
  rawP := s.rawP
  rawH := s.rawH

/-- The coefficient table, while it holds values (R11). It has no port (R26). -/
def State.table (s : State) : Option Coeffs :=
  match s.sess with
  | .closed => none
  | .configuring => none
  | .ready table => some table

/-- The observation of a run (70_reset_and_hazards.md R136): the ports, and for a model, which may look inside, the
coefficient table and the buffer. -/
structure Observation where
  ports : Ports
  table : Option Coeffs
  buf : List Host.Cell
deriving DecidableEq, Repr

/-- What is observed of a state at the end of a run (R136). -/
def State.observe (s : State) : Observation where
  ports := s.ports
  table := s.table
  buf := s.buf

end Sys2Proof.Machine
end

