-- ==== Sys2Proof/Machine/Arith.lean ====
section
/-!
DEFINITION. The arithmetic of `COMPT`: exact integer stages and three roundings (42_compensation.md R75 to R80, R82,
R85), binary64 values and their 64-bit patterns (00_scope.md R7, R9). This is the stage form, which the spec offers a
model beside MAS's formula (42_compensation.md section 2); Machine/Formula.lean holds the formula itself.
All integers are unbounded, so nothing wraps, saturates or truncates (R82).
-/
namespace Sys2Proof.Machine

/-! ### Rounding an integer to 53 significant bits (R82) -/

/-- Bit length of `a`: `2^(L-1) <= a < 2^L`, and 0 for 0. -/
def bitLength (a : Nat) : Nat := if a = 0 then 0 else Nat.log2 a + 1

/-- `R53` on a magnitude: `a` rounded to 53 significant bits, ties to even (R82). -/
def r53Nat (a : Nat) : Nat :=
  if bitLength a ≤ 53 then a
  else
    let k := bitLength a - 53
    let q := a >>> k
    let r := a - q <<< k
    let h := 2 ^ (k - 1)
    if r > h ∨ (r = h ∧ q % 2 = 1) then (q + 1) <<< k else q <<< k

/-- `R53` (R82): the sign is kept. -/
def r53 (n : Int) : Int := n.sign * r53Nat n.natAbs

/-! ### Binary64 values (00_scope.md R7, R9) -/

/-- A binary64 value as 00_scope.md R7 has it: a signed zero, or `(-1)^neg * m * 2^e` with `2^52 <= m < 2^53`.
Subnormals, infinities and NaNs cannot be produced by `COMPT` (42_compensation.md R86). -/
inductive Binary64 where
  | zero (neg : Bool)
  | normal (neg : Bool) (m : Nat) (e : Int)
deriving DecidableEq, Repr

/-- `bits64` (00_scope.md R9): sign at bit 63, biased exponent `E = e + 1075` at 62:52, fraction `m - 2^52` at 51:0. -/
def bits64 : Binary64 → BitVec 64
  | .zero neg => BitVec.ofBool neg ++ (0 : BitVec 63)
  | .normal neg m e =>
    BitVec.ofBool neg ++ BitVec.ofNat 11 (e + 1075).toNat ++ BitVec.ofNat 52 (m - 2 ^ 52)

/-- `floor(log2(a / b))` for positive `a`, `b`: the `e` with `2^e <= a/b < 2^(e+1)`. -/
def floorLog2Ratio (a b : Nat) : Int :=
  let k : Int := (Nat.log2 a : Int) - (Nat.log2 b : Int)
  if b * 2 ^ k.toNat ≤ a * 2 ^ (-k).toNat then k else k - 1

/-- Round `a / b` to an integer, ties to even: the step from `q` to `m` in 00_scope.md R7. -/
def roundHalfEven (a b : Nat) : Nat :=
  let n := a / b
  let r := a % b
  if 2 * r > b ∨ (2 * r = b ∧ n % 2 = 1) then n + 1 else n

/-- `RN(a / b)` (00_scope.md R7) for positive `a`, `b`, with the sign given apart. A significand that rounds up to
`2^53` is `2^52` at the next exponent. -/
def rnRatio (neg : Bool) (a b : Nat) : Binary64 :=
  let e := floorLog2Ratio a b - 52
  let m := roundHalfEven (a * 2 ^ (-e).toNat) (b * 2 ^ e.toNat)
  if m = 2 ^ 53 then .normal neg (2 ^ 52) (e + 1) else .normal neg m e

/-! ### The stages of `COMPT` -/

/-- Stage DIFF (R75): `d = RAW_T - 16*T1`, exact. -/
def stageD (raw : BitVec 20) (t1 : BitVec 16) : Int := (raw.toNat : Int) - 16 * (t1.toNat : Int)

/-- Stage MAC1 (R76): `P1 = d * T2`, so that `v1 = P1 / 2^14`. -/
def stageP1 (d : Int) (t2 : BitVec 16) : Int := d * t2.toInt

/-- Stage SQ (R77): `Q = d * d`. -/
def stageQ (d : Int) : Int := d * d

/-- Stage MAC2 (R77): `P2 = Q * T3`, so that `v2 = R53(P2) / 2^34`. -/
def stageP2 (d : Int) (t3 : BitVec 16) : Int := stageQ d * t3.toInt

/-- Stage ACC before its rounding (R78): `N = P1 * 2^20 + R53(P2)`, so that `v1 + v2 = N / 2^34`. The first rounding
is in `R53(P2)`. -/
def stageN (d : Int) (t2 t3 : BitVec 16) : Int := stageP1 d t2 * 2 ^ 20 + r53 (stageP2 d t3)

/-- Stage ACC (R78): `S = R53(N)`, the second rounding; `s = S / 2^34`. -/
def stageS (d : Int) (t2 t3 : BitVec 16) : Int := r53 (stageN d t2 t3)

/-- Stage CONV (R79): `FINE = trunc(s) = sign(S) * (|S| >> 34)`, toward zero (90_conflicts.md C1). -/
def stageConv (S : Int) : Int := S.sign * ((S.natAbs >>> 34 : Nat) : Int)

/-- The zero `OUT_T` holds when `s = 0` (R85): `-0` if and only if `d = 0`, `T2 < 0` and `T3 < 0`. -/
def zeroOut (d : Int) (t2 t3 : BitVec 16) : Binary64 :=
  .zero (d = 0 ∧ t2.toInt < 0 ∧ t3.toInt < 0)

/-- Stage DIV (R80): `RN(s / 5120) = RN(S / (5 * 2^44))`, the third rounding, or the zero of R85. -/
def stageDiv (d : Int) (t2 t3 : BitVec 16) (S : Int) : Binary64 :=
  if S = 0 then zeroOut d t2 t3 else rnRatio (S < 0) S.natAbs (5 * 2 ^ 44)

/-- The value `COMPT` writes to `FINE` (R73, R79), as an `s32`. -/
def compFine (raw : BitVec 20) (c : Coeffs) : BitVec 32 :=
  BitVec.ofInt 32 (stageConv (stageS (stageD raw c.t1) c.t2 c.t3))

/-- The pattern `COMPT` writes to `OUT_T` (R73, R80). -/
def compOut (raw : BitVec 20) (c : Coeffs) : BitVec 64 :=
  let d := stageD raw c.t1
  bits64 (stageDiv d c.t2 c.t3 (stageS d c.t2 c.t3))

end Sys2Proof.Machine
end

