-- ==== Sys2Proof/Machine/CompensationCommands.lean ====
section
/-!
DEFINITION. The compensation commands `COMPT`, `COMPP`, `COMPH` (42_compensation.md).
-/
namespace Sys2Proof.Machine

/-- `COMPT` (R73): `FINE` and `OUT_T` from `RAW_T` and the table. Nothing about their values is checked (R87), and
`RAW_T` is not consumed (R88). -/
def execCompT (s : State) : Answer :=
  s.finish do
    let table ← s.requireReady
    let raw ← requireSample s.rawT
    pure { s with fine := some (compFine raw table), outT := some (compOut raw table) }

/-- `COMPP` (R91): `OUT_P` from `RAW_P`, `COEFX` and `FINE` by the parameter function `CompP`. -/
def execCompP (s : State) : Answer :=
  s.finish do
    let table ← s.requireReady
    requireFeature s.params.hasP
    let raw ← requireSample s.rawP
    let fine ← s.requireFine
    pure { s with outP := some (Config.compP raw table.coefx fine) }

/-- `COMPH` (R92): `OUT_H` from `RAW_H`, `COEFX` and `FINE` by the parameter function `CompH`. -/
def execCompH (s : State) : Answer :=
  s.finish do
    let table ← s.requireReady
    requireFeature s.params.hasH
    let raw ← requireSample s.rawH
    let fine ← s.requireFine
    pure { s with outH := some (Config.compH raw table.coefx fine) }

end Sys2Proof.Machine
end

