-- ==== Sys2Proof/Machine/DecodeCommands.lean ====
section
/-!
DEFINITION. The commands that turn buffer bytes into typed integers: `LDCAL`, `ASM.T`, `ASM.P`, `ASM.H` (41_decode.md).
-/
namespace Sys2Proof.Machine

/-- `LDCAL off` (R65): `CAL_LEN` bytes to the coefficient table, which are consumed; Configuring to Ready. -/
def execLdcal (off : Byte) (s : State) : Answer :=
  s.finish do
    s.requireConfiguring
    let b ← s.memRead (offset off) s.params.calLen
    pure { s.memInvalidate (offset off) s.params.calLen with sess := .ready (decodeTable b) }

/-- The part that the three forms of `ASM` share (R66): the raw sample, and the state with its three bytes consumed. -/
def State.assemble (s : State) (off : Byte) : Except StatusCode (BitVec 20 × State) := do
  let _ ← s.requireReady
  let b ← s.memRead (offset off) 3
  pure (raw20 (nthByte b 0) (nthByte b 1) (nthByte b 2), s.memInvalidate (offset off) 3)

/-- `ASM.T off` (R66): `RAW_T`, and a new measurement cycle (10_state.md R17). -/
def execAsmT (off : Byte) (s : State) : Answer :=
  s.finish do
    let (raw, t) ← s.assemble off
    pure { t.newCycle with rawT := some raw }

/-- `ASM.P off` (R66): `RAW_P`; the cycle goes on. -/
def execAsmP (off : Byte) (s : State) : Answer :=
  s.finish do
    let (raw, t) ← s.assemble off
    pure { t with rawP := some raw }

/-- `ASM.H off` (R66): `RAW_H`; the cycle goes on. -/
def execAsmH (off : Byte) (s : State) : Answer :=
  s.finish do
    let (raw, t) ← s.assemble off
    pure { t with rawH := some raw }

end Sys2Proof.Machine
end

