-- ==== Sys2Proof/Machine/SessionCommands.lean ====
section
/-!
DEFINITION. The session commands `NOP`, `OPEN`, `CLOSE` (43_session.md).
-/
namespace Sys2Proof.Machine

/-- `NOP` (R95): does nothing to the data state. -/
def execNop (s : State) : Answer :=
  s.finish (.ok s)

/-- `OPEN` (R96): Closed to Configuring, otherwise `E_OPENED`. -/
def execOpen (s : State) : Answer :=
  s.finish do
    s.requireClosed
    pure { s with sess := .configuring }

/-- `CLOSE` (R97): never faults, forgets everything the session owned, leaves `ERR`. -/
def execClose (s : State) : Answer :=
  s.finish (.ok s.forgetSession)

end Sys2Proof.Machine
end

