-- ==== Sys2Proof/Machine/Dispatch.lean ====
section
/-!
DEFINITION. One arm per command, each a direct call of its meaning.
-/
namespace Sys2Proof.Machine

def exec (i : Instr) (s : State) : Host.Outcome State Fault Refusal :=
  match i with
  | .nop => Sys2Proof.Machine.execNop s
  | .openSession => Sys2Proof.Machine.execOpen s
  | .closeSession => Sys2Proof.Machine.execClose s
  | .rxb off imm8 => Sys2Proof.Machine.execRxb off imm8 s
  | .rxclr => Sys2Proof.Machine.execRxclr s
  | .ldcal off => Sys2Proof.Machine.execLdcal off s
  | .asmT off => Sys2Proof.Machine.execAsmT off s
  | .asmP off => Sys2Proof.Machine.execAsmP off s
  | .asmH off => Sys2Proof.Machine.execAsmH off s
  | .compT => Sys2Proof.Machine.execCompT s
  | .compP => Sys2Proof.Machine.execCompP s
  | .compH => Sys2Proof.Machine.execCompH s

end Sys2Proof.Machine
end

