-- ==== Sys2Proof/Machine/Step.lean ====
section
/-!
DEFINITION. One step of the machine: the host's next input (10_state.md R10, R20; 70_reset_and_hazards.md R122).
-/
namespace Sys2Proof.Machine

/-- A command word, taken off the host's list, is decoded and executed; a word that is not a command raises
`E_ILLEGAL` (30_encoding.md R50, R51). `RESET` resets the CU (70_reset_and_hazards.md R122). With nothing presented
the CU waits for the next command word (60_exceptions.md R105; log entry 5). -/
def step (s : State) : Host.Outcome State Fault Refusal :=
  match s.inputs with
  | [] => .next s
  | .reset :: _ => .next s.dropInput.applyReset
  | .command w :: _ =>
    match decode w with
    | .ok i => exec i s.dropInput
    | .error _ => execIllegal s.dropInput

/-- The state `s` in which the host presents, as its next command, the word whose `nbits` low bits are those of `w`
and whose other bits are 0. -/
def State.withFetchWord (s : State) (nbits w : Nat) : State :=
  s.present (BitVec.ofNat 32 (w % 2 ^ nbits))

end Sys2Proof.Machine
end

