-- ==== Sys2Proof/Machine/Assembler.lean ====
section
/-!
DEFINITION. The assembler of 30_encoding.md R54 and R55: source text to source line to commands to words. It stands
beside the hardware; no step uses it.
-/
namespace Sys2Proof.Machine

/-! ### Lines to commands and words -/

/-- A number of source text as an operand field. `AsmLine.wellFormed` has checked that it fits. -/
def operandByte (n : Nat) : Byte := BitVec.ofNat 8 n

/-- The command `ASM.q off` (R54). -/
def asmCommand (q : Quantity) (off : Nat) : Instr :=
  match q with
  | .temperature => .asmT (operandByte off)
  | .pressure => .asmP (operandByte off)
  | .humidity => .asmH (operandByte off)

/-- `RXBURST off, b0, ..., b(n-1)`: one `RXB` a byte, at rising offsets (R55). -/
def burst (off : Nat) : List Nat → List Instr
  | [] => []
  | b :: bs => .rxb (operandByte off) (operandByte b) :: burst (off + 1) bs

/-- The commands a source line stands for: itself, or its expansion (R54, R55). -/
def expandLine : AsmLine → List Instr
  | .nop => [.nop]
  | .openSession => [.openSession]
  | .closeSession => [.closeSession]
  | .rxb off byte => [.rxb (operandByte off) (operandByte byte)]
  | .rxclr => [.rxclr]
  | .ldcal off => [.ldcal (operandByte off)]
  | .asm q off => [asmCommand q off]
  | .compT => [.compT]
  | .compP => [.compP]
  | .compH => [.compH]
  | .rxburst off bytes => burst off bytes
  | .loadcal bytes => burst 0 bytes ++ [.ldcal 0]
  | .sample q m l x => burst 0 [m, l, x] ++ [asmCommand q 0]
  | .measureT m l x => burst 0 [m, l, x] ++ [asmCommand .temperature 0, .compT]

/-- The words of a source line, or nothing where the assembler refuses it (R54). -/
def assembleLine (calLen : Nat) (line : AsmLine) : Option (List Word) :=
  if line.wellFormed calLen then some ((expandLine line).map encode) else none

/-! ### Text to lines (R54): "One command per line; `;` starts a comment; mnemonics are upper case; numbers are decimal
or `0x` hexadecimal; operands are separated by `,`." -/

/-- Why a line of text is no source line. -/
inductive AsmError where
  | unknownMnemonic
  | badNumber
  | badOperands
deriving DecidableEq, Repr

/-- A blank between the parts of a line. -/
def isBlank (c : Char) : Bool := c = ' ' || c = '\t' || c = '\r' || c = '\n'

/-- The text without blanks at its ends. -/
def trimBlanks (t : List Char) : List Char :=
  ((t.dropWhile isBlank).reverse.dropWhile isBlank).reverse

/-- The parts of a text between commas. -/
def splitAtCommas : List Char → List (List Char)
  | [] => [[]]
  | c :: t =>
    match splitAtCommas t with
    | [] => [[c]]
    | part :: parts => if c = ',' then [] :: part :: parts else (c :: part) :: parts

/-- The value of a digit in base 10 or 16. -/
def digitValue (hex : Bool) (c : Char) : Option Nat :=
  if '0' ≤ c ∧ c ≤ '9' then some (c.toNat - '0'.toNat)
  else if hex = true ∧ 'a' ≤ c ∧ c ≤ 'f' then some (c.toNat - 'a'.toNat + 10)
  else if hex = true ∧ 'A' ≤ c ∧ c ≤ 'F' then some (c.toNat - 'A'.toNat + 10)
  else none

/-- The value of a run of digits that begins with the value `acc`. -/
def digitsValue (hex : Bool) (acc : Nat) : List Char → Option Nat
  | [] => some acc
  | c :: t =>
    match digitValue hex c with
    | some v => digitsValue hex (acc * (if hex then 16 else 10) + v) t
    | none => none

/-- A decimal or `0x` hexadecimal number. -/
def parseNumber (t : List Char) : Option Nat :=
  match trimBlanks t with
  | [] => none
  | '0' :: 'x' :: ds => if ds.isEmpty then none else digitsValue true 0 ds
  | ds => digitsValue false 0 ds

/-- The operands of a line: none for a text of blanks. -/
def parseOperands (t : List Char) : Option (List Nat) :=
  if (trimBlanks t).isEmpty then some [] else (splitAtCommas t).mapM parseNumber

/-- The quantity a mnemonic's suffix names. -/
def parseQuantity : List Char → Option Quantity
  | ['T'] => some .temperature
  | ['P'] => some .pressure
  | ['H'] => some .humidity
  | _ => none

/-- The line a mnemonic without operands stands for. -/
def plainLine (m : String) : Option AsmLine :=
  match m with
  | "NOP" => some .nop
  | "OPEN" => some .openSession
  | "CLOSE" => some .closeSession
  | "RXCLR" => some .rxclr
  | "COMPT" => some .compT
  | "COMPP" => some .compP
  | "COMPH" => some .compH
  | _ => none

/-- The line a mnemonic and its operands stand for (R54, R55). -/
def lineOf (m : List Char) (ns : List Nat) : Except AsmError AsmLine :=
  match plainLine (String.ofList m), ns with
  | some line, [] => .ok line
  | some _, _ :: _ => .error .badOperands
  | none, ns =>
    if m = "RXB".toList then
      match ns with
      | [off, byte] => .ok (.rxb off byte)
      | _ => .error .badOperands
    else if m = "LDCAL".toList then
      match ns with
      | [off] => .ok (.ldcal off)
      | _ => .error .badOperands
    else if m = "RXBURST".toList then
      match ns with
      | off :: bytes => .ok (.rxburst off bytes)
      | [] => .error .badOperands
    else if m = "LOADCAL".toList then .ok (.loadcal ns)
    else if m = "MEASURE.T".toList then
      match ns with
      | [m, l, x] => .ok (.measureT m l x)
      | _ => .error .badOperands
    else if m.take 4 = "ASM.".toList then
      match parseQuantity (m.drop 4), ns with
      | some q, [off] => .ok (.asm q off)
      | some _, _ => .error .badOperands
      | none, _ => .error .unknownMnemonic
    else if m.take 7 = "SAMPLE.".toList then
      match parseQuantity (m.drop 7), ns with
      | some q, [m, l, x] => .ok (.sample q m l x)
      | some _, _ => .error .badOperands
      | none, _ => .error .unknownMnemonic
    else .error .unknownMnemonic

/-- One line of text: `none` for a line that is blank or only a comment. -/
def parseLine (t : List Char) : Except AsmError (Option AsmLine) :=
  let t := trimBlanks (t.takeWhile (fun c => c ≠ ';'))
  if t.isEmpty then .ok none
  else
    match parseOperands (t.dropWhile (fun c => !isBlank c)) with
    | none => .error .badNumber
    | some ns =>
      match lineOf (t.takeWhile (fun c => !isBlank c)) ns with
      | .ok line => .ok (some line)
      | .error e => .error e

end Sys2Proof.Machine
end

