-- ==== Sys2Proof/Machine/Formula.lean ====
section
/-!
DEFINITION. The manufacturer's formula as MAS gives it, one binary64 operation at a time (42_compensation.md R74, R83),
over the rationals (00_scope.md R7, R8). `COMPT` is written with the stage form of Machine/Arith.lean; R81 says that
the two are equal, and an obligation states it.
-/
namespace Sys2Proof.Machine

/-- `RN(x)` for `x != 0` (00_scope.md R7): to nearest, ties to even. -/
def rn (x : ℚ) : ℚ :=
  let e := Int.log 2 |x|
  let ulp : ℚ := 2 ^ (e - 52)
  let q := x / ulp
  let n := ⌊q⌋
  let r := q - n
  let m := if r < 1 / 2 then n else if r > 1 / 2 then n + 1 else if n % 2 = 0 then n else n + 1
  m * ulp

/-- `trunc(x)` (00_scope.md R8): toward zero. -/
def truncToInt (x : ℚ) : ℤ := if 0 ≤ x then ⌊x⌋ else ⌈x⌉

/-- A value of the formula: a signed zero or a non-zero rational (00_scope.md R7). -/
inductive Double where
  | zero (neg : Bool)
  | num (q : ℚ)

/-- The rational a value stands for; both zeros are 0. -/
def Double.toRat : Double → ℚ
  | .zero _ => 0
  | .num q => q

/-- Integer to binary64: exact for every operand of the formula (R74, R83). -/
def Double.ofInt (n : ℤ) : Double := if n = 0 then .zero false else .num n

/-- The sign of a value; `-0` is negative. -/
def Double.isNeg : Double → Bool
  | .zero neg => neg
  | .num q => q < 0

/-- One rounded operation with exact non-zero result `q`; an exact zero has the sign `neg` of the operation. -/
def Double.round (neg : Bool) (q : ℚ) : Double := if q = 0 then .zero neg else .num (rn q)

/-- `x + y`: a sum of zeros is `-0` only when both are, and `x + (-x)` is `+0` (R85). -/
def Double.add : Double → Double → Double
  | .zero a, .zero b => .zero (a && b)
  | .zero _, .num q => .num q
  | .num q, .zero _ => .num q
  | .num p, .num q => .round false (p + q)

/-- The value with its sign changed. -/
def Double.negate : Double → Double
  | .zero neg => .zero (!neg)
  | .num q => .num (-q)

/-- `x - y`. -/
def Double.sub (x y : Double) : Double := x.add y.negate

/-- `x * y`: the sign is the product of the signs, of a zero too (R85). -/
def Double.mul (x y : Double) : Double := .round (x.isNeg != y.isNeg) (x.toRat * y.toRat)

/-- `x / c` for a positive constant `c`. -/
def Double.divBy (x : Double) (c : ℚ) : Double := .round x.isNeg (x.toRat / c)

/-- A value as significand and exponent (00_scope.md R7, R9). -/
def Double.toBinary64 : Double → Binary64
  | .zero neg => .zero neg
  | .num q =>
    let e := Int.log 2 |q| - 52
    .normal (q < 0) ⌊|q| / 2 ^ e⌋₊ e

/-! ### MAS's four lines (42_compensation.md R74) -/

/-- `var1 = (raw/16384.0 - dig_T1/1024.0) * dig_T2`. -/
def masVar1 (raw : BitVec 20) (c : Coeffs) : Double :=
  (((Double.ofInt raw.toNat).divBy 16384).sub ((Double.ofInt c.t1.toNat).divBy 1024)).mul (.ofInt c.t2.toInt)

/-- `raw/131072.0 - dig_T1/8192.0`. -/
def masDiff (raw : BitVec 20) (c : Coeffs) : Double :=
  ((Double.ofInt raw.toNat).divBy 131072).sub ((Double.ofInt c.t1.toNat).divBy 8192)

/-- `var2 = ((raw/131072.0 - dig_T1/8192.0)^2) * dig_T3`. -/
def masVar2 (raw : BitVec 20) (c : Coeffs) : Double :=
  ((masDiff raw c).mul (masDiff raw c)).mul (.ofInt c.t3.toInt)

/-- `var1 + var2`, computed once and used for both results. -/
def masSum (raw : BitVec 20) (c : Coeffs) : Double := (masVar1 raw c).add (masVar2 raw c)

/-- `fineValue`: the cast of `var1 + var2` to a 32-bit integer, toward zero (90_conflicts.md C1). -/
def masFine (raw : BitVec 20) (c : Coeffs) : ℤ := truncToInt (masSum raw c).toRat

/-- `celsius = (var1 + var2) / 5120.0`, as a 64-bit pattern. -/
def masCelsius (raw : BitVec 20) (c : Coeffs) : BitVec 64 := bits64 ((masSum raw c).divBy 5120).toBinary64

/-! ### The pseudocode of `COMPT` over the rationals (42_compensation.md R73) -/

/-- `d = RAW_T - 16*T1`. -/
def exactD (raw : BitVec 20) (c : Coeffs) : ℚ := raw.toNat - 16 * c.t1.toNat

/-- `v1 = (d * T2) / 2^14`. -/
def exactV1 (raw : BitVec 20) (c : Coeffs) : ℚ := exactD raw c * c.t2.toInt / 2 ^ 14

/-- `v2 = RN((d*d*T3) / 2^34)`, or 0 when `d*d*T3 = 0`. -/
def exactV2 (raw : BitVec 20) (c : Coeffs) : ℚ :=
  let p := exactD raw c * exactD raw c * c.t3.toInt
  if p = 0 then 0 else rn (p / 2 ^ 34)

/-- `s = RN(v1 + v2)`, or 0 when `v1 + v2 = 0`. -/
def exactS (raw : BitVec 20) (c : Coeffs) : ℚ :=
  let v := exactV1 raw c + exactV2 raw c
  if v = 0 then 0 else rn v

/-- `FINE <- trunc(s)`. -/
def exactFine (raw : BitVec 20) (c : Coeffs) : ℤ := truncToInt (exactS raw c)

/-- `OUT_T <- bits64(RN(s / 5120))`, or the signed zero of R85 when `s = 0`. -/
def exactOut (raw : BitVec 20) (c : Coeffs) : BitVec 64 :=
  if exactS raw c = 0 then bits64 (.zero (exactD raw c = 0 ∧ c.t2.toInt < 0 ∧ c.t3.toInt < 0))
  else bits64 (Double.num (rn (exactS raw c / 5120))).toBinary64

end Sys2Proof.Machine
end

