-- ==== Sys2Proof/Safety.lean ====
section
/-!
DEFINITION. What claims are stated in: the invariant of 10_state.md R25, the run of a host's list of inputs and when it
is fault-free (60_exceptions.md R117, 70_reset_and_hazards.md R136).
-/
namespace Sys2Proof.Machine

/-- "No fault recorded": `ERR = 0` (60_exceptions.md R117). -/
def FaultFree (s : State) : Prop := s.err = false

/-- Every flag of 10_state.md R16 that stands in `STATUS` is 0. -/
def NoValidFlag (s : State) : Prop :=
  s.rvT = false ∧ s.rvP = false ∧ s.rvH = false ∧ s.fv = false ∧ s.ovT = false ∧ s.ovP = false ∧ s.ovH = false

/-- The session is Ready. -/
def IsReady (s : State) : Prop := s.table.isSome = true

/-- The invariants of 10_state.md R25, and beside them what the rules say of parameters, buffer, `COEFX` and `FINE`. -/
structure StateInv (s : State) : Prop where
  /-- The parameters meet the constraints of 00_scope.md R4. -/
  params : s.params.Valid
  /-- The buffer is in canonical form. -/
  bufWf : Memory.wf s.buf
  /-- No byte stands outside the buffer (10_state.md R21). -/
  bufRange : ∀ c ∈ s.buf, c.1 < s.params.bufSize
  /-- `COEFX` has `CAL_LEN - 6` bytes (10_state.md R12). -/
  coefxLength : ∀ c, s.sess = .ready c → c.coefx.length = s.params.calLen - 6
  /-- (I-a). -/
  sessCode : s.sess.code = 0 ∨ s.sess.code = 1 ∨ s.sess.code = 2
  /-- (I-b). -/
  tableReady : s.table.isSome = true ↔ s.sess.code = 2
  /-- (I-c), first half: Closed implies that every flag in `STATUS` is 0. -/
  closedFlags : s.sess = .closed → NoValidFlag s
  /-- (I-c), second half: Closed implies that every `BV` is 0. -/
  closedBuf : s.sess = .closed → s.buf = []
  /-- (I-d): a flag in `STATUS` implies Ready. -/
  flagsReady : ¬ IsReady s → NoValidFlag s
  /-- (I-e). -/
  ovT_eq_fv : s.ovT = s.fv
  /-- (I-f). -/
  outputsNeedFine : s.ovP = true ∨ s.ovH = true → s.fv = true
  /-- (I-g). -/
  fineNeedsSample : s.fv = true → s.rvT = true
  /-- (I-h), first half. -/
  errLast : s.err = false → s.last = .ok
  /-- (I-h), second half. -/
  lastErr : s.last ≠ .ok → s.err = true
  /-- (I-i). -/
  reservedBits : s.statusWord.extractLsb' 9 3 = 0 ∧ s.statusWord.extractLsb' 17 15 = 0
  /-- Without `HAS_P`, `OV_P` is never 1 (10_state.md R18). -/
  noPressure : s.params.hasP = false → s.ovP = false
  /-- Without `HAS_H`, `OV_H` is never 1 (10_state.md R18). -/
  noHumidity : s.params.hasH = false → s.ovH = false
  /-- The tight bound of `FINE` (10_state.md R14, 90_conflicts.md C9). -/
  fineBound : ∀ f, s.fine = some f → -4194298 ≤ f.toInt ∧ f.toInt ≤ 4194298

/-- The results of a measurement cycle belong to the sample and the table that the CU holds: while `FV = 1`, `FINE`
and `OUT_T` are what `COMPT` computes from `RAW_T` and the table (10_state.md R17, 42_compensation.md R88). -/
def ResultsCurrent (s : State) : Prop :=
  ∀ f, s.fine = some f → ∃ raw c, s.rawT = some raw ∧ s.sess = .ready c ∧
    f = compFine raw c ∧ s.outT = some (compOut raw c)

/-! ### Causes and priority of faults (60_exceptions.md R106 to R115) -/

/-- The buffer access a command makes: its first offset and its number of bytes, for the commands that touch given
offsets (20_memory.md R31, R37). -/
def accessOf (i : Instr) (s : State) : Option (Nat × Nat) :=
  match i with
  | .rxb off _ => some (off.toNat, 1)
  | .ldcal off => some (off.toNat, s.params.calLen)
  | .asmT off | .asmP off | .asmH off => some (off.toNat, 3)
  | .nop | .openSession | .closeSession | .rxclr | .compT | .compP | .compH => none

/-- The access is out of range: `off + n > BUF_SIZE` (60_exceptions.md R110). -/
def outOfRange (i : Instr) (s : State) : Bool :=
  match accessOf i s with
  | some (a, n) => s.params.bufSize < a + n
  | none => false

/-- Some byte of the access has `BV = 0` (60_exceptions.md R111). -/
def someStale (i : Instr) (s : State) : Bool :=
  match accessOf i s with
  | some (a, n) => (List.range n).any (fun k => !s.bv (a + k))
  | none => false

/-- Whether the cause of status code `e` applies to command `i` in state `s`, whatever other causes apply
(60_exceptions.md R107 to R114). A decoded command has no cause of `E_ILLEGAL`, and `OK` is no fault. -/
def faultCause (e : StatusCode) (i : Instr) (s : State) : Bool :=
  match e with
  | .ok | .illegal => false
  | .notReady =>
    match i with
    | .nop | .openSession | .closeSession => false
    | .rxb _ _ | .rxclr | .ldcal _ => s.sess = .closed
    | .asmT _ | .asmP _ | .asmH _ | .compT | .compP | .compH => s.table = none
  | .opened =>
    match i with
    | .openSession => s.sess ≠ .closed
    | _ => false
  | .locked =>
    match i with
    | .ldcal _ => s.table ≠ none
    | _ => false
  | .unimpl =>
    match i with
    | .compP => !s.params.hasP
    | .compH => !s.params.hasH
    | _ => false
  | .range => outOfRange i s
  | .stale =>
    match i with
    | .ldcal _ | .asmT _ | .asmP _ | .asmH _ => !outOfRange i s && someStale i s
    | _ => false
  | .noSample =>
    match i with
    | .compT => !s.rvT
    | .compP => !s.rvP
    | .compH => !s.rvH
    | _ => false
  | .noFine =>
    match i with
    | .compP | .compH => !s.fv
    | _ => false

/-- The order in which causes are reported, after `E_ILLEGAL` (60_exceptions.md R115, 2 to 8). -/
def faultPriority : List StatusCode :=
  [.notReady, .opened, .locked, .unimpl, .range, .stale, .noSample, .noFine]

/-- The faults a command can raise, after `E_ILLEGAL` (60_exceptions.md R115, second paragraph). -/
def possibleFaults : Instr → List StatusCode
  | .nop | .closeSession => []
  | .openSession => [.opened]
  | .rxb _ _ => [.notReady, .range]
  | .rxclr => [.notReady]
  | .ldcal _ => [.notReady, .locked, .range, .stale]
  | .asmT _ | .asmP _ | .asmH _ => [.notReady, .range, .stale]
  | .compT => [.notReady, .noSample]
  | .compP | .compH => [.notReady, .unimpl, .noSample, .noFine]

/-- One cell of the transition table of `SESS` (43_session.md R98), by the code of the present state: the code of the
next state when the command succeeds, or the fault that the session state alone decides. -/
def sessionCell (i : Instr) (sess : BitVec 2) : Except StatusCode (BitVec 2) :=
  match i with
  | .nop => .ok sess
  | .openSession => if sess = 0 then .ok 1 else .error .opened
  | .closeSession => .ok 0
  | .rxb _ _ | .rxclr => if sess = 0 then .error .notReady else .ok sess
  | .ldcal _ => if sess = 0 then .error .notReady else if sess = 1 then .ok 2 else .error .locked
  | .asmT _ | .asmP _ | .asmH _ => if sess = 2 then .ok 2 else .error .notReady
  | .compT | .compP | .compH => if sess = 2 then .ok 2 else .error .notReady

/-- A run (70_reset_and_hazards.md R136): the host's finite list of inputs executed from `s`. -/
def runInputs (s : State) (l : List HostInput) : Answer :=
  Sys2Proof.core.run l.length { s with inputs := l }

end Sys2Proof.Machine
end

