-- ==== Sys2Proof/Certificates/Slice0/Obligations.lean ====
section
/-!
DEFINITION. The statements for the provers. Each docstring names the rule of the spec it formalises.
-/

open Sys2Proof Sys2Proof.Machine

/-! ### Encoding (30_encoding.md) -/

/-- R56: `encode` is the inverse of `decode` on legal words, and `decode` of `encode` on every command. -/
def Obligations.DecodeInvertsEncode : Prop :=
  (∀ w i, decode w = .ok i → encode i = w) ∧ (∀ i, decode (encode i) = .ok i)

/-- R51: the words that `decode` maps to `ILLEGAL` are the four kinds (a) to (d), and every one of them executes as
`E_ILLEGAL` in every state, with no other effect than that the host's word is taken. -/
def Obligations.IllegalWordsAreTheFourKinds : Prop :=
  (∀ w, (∃ k, decode w = .error k) ↔
    (opField w = 0xB ∨ opField w = 0xC ∨ opField w = 0xD ∨ opField w = 0xE) ∨
    (opField w = 0x0 ∨ opField w = 0xF) ∨
    w &&& mustBeZeroMask (opField w) ≠ 0 ∨
    (opField w = 0x7 ∧ qField w = 3)) ∧
  (∀ s w rest k, s.inputs = .command w :: rest → decode w = .error k →
    step s = .next { s with inputs := rest, last := .illegal, err := true })

/-- R49, R50: a word is a command exactly when it matches that command's row, and no word matches two rows. -/
def Obligations.DecodeFollowsTheOpcodeMap : Prop :=
  (∀ w i, decode w = .ok i ↔
    ∃ r ∈ opcodeMap, w &&& r.mask = r.pattern ∧ i = withOperands r.command (offField w) (immField w)) ∧
  (∀ w, ∀ r ∈ opcodeMap, ∀ r' ∈ opcodeMap, w &&& r.mask = r.pattern → w &&& r'.mask = r'.pattern → r = r')

/-- Words written out from the fields of R46 and the rows of R49, one for each format and quantity. -/
def Obligations.DecodesWrittenOutWords : Prop :=
  decode 0b0010_00_00_00000000_00000000_00000000 = .ok .openSession ∧
  decode 0b0100_00_00_00000000_00000001_00010000 = .ok (.rxb 1 0x10) ∧
  decode 0b0110_00_00_00000000_00000010_00000000 = .ok (.ldcal 2) ∧
  decode 0b0111_00_00_00000000_00000011_00000000 = .ok (.asmT 3) ∧
  decode 0b0111_00_01_00000000_00000101_00000000 = .ok (.asmP 5) ∧
  decode 0b0111_00_10_00000000_00000000_00000000 = .ok (.asmH 0) ∧
  decode 0b1010_00_00_00000000_00000000_00000000 = .ok .compH

/-! ### Steps and the host's inputs -/

/-- A step takes the host's next word and runs the command it decodes to (10_state.md R10, R20). -/
def Obligations.StepRunsTheDecodedCommand : Prop :=
  ∀ s w rest i, s.inputs = .command w :: rest → decode w = .ok i → step s = exec i { s with inputs := rest }

/-- With no input presented a step changes nothing. The model's own choice, log entry 5. -/
def Obligations.StepWaitsWithoutInput : Prop :=
  ∀ s, s.inputs = [] → step s = .next s

/-- R24: what reset leaves, by the `RESET` input in any state and in `State.reset`. Two clauses are not R24's: that the
parameters stay is R23 with log entry 1, and that the rest of the host's list stays is the model's choice, log entry 2. -/
def Obligations.ResetLeavesTheResetState : Prop :=
  (∀ s rest, s.inputs = .reset :: rest →
    ∃ t, step s = .next t ∧ t.params = s.params ∧ t.inputs = rest ∧
      t.sess = .closed ∧ NoValidFlag t ∧ (∀ a, t.bv a = false) ∧ t.last = .ok ∧ t.err = false ∧ t.statusWord = 0 ∧
      t.table = none ∧ t.rawT = none ∧ t.rawP = none ∧ t.rawH = none ∧ t.fine = none ∧ t.outT = none ∧
      t.outP = none ∧ t.outH = none ∧ ∀ a, byteAt t.buf a = none) ∧
  (State.reset.sess = .closed ∧ NoValidFlag State.reset ∧ State.reset.statusWord = 0 ∧ State.reset.last = .ok ∧
    State.reset.err = false ∧ State.reset.table = none ∧ ∀ a, byteAt State.reset.buf a = none)

/-- R19, R123: `ERR` is sticky; only reset clears it. -/
def Obligations.OnlyResetClearsErr : Prop :=
  ∀ s t, s.err = true → step s = .next t → t.err = true ∨ ∃ rest, s.inputs = .reset :: rest

/-- R103, R135: no step stops the CU; from every state it answers a next state. -/
def Obligations.EveryStepAnswersANextState : Prop :=
  ∀ s, ∃ t, step s = .next t

/-- R23: no step writes the parameters, and a step takes exactly the first of the host's inputs. -/
def Obligations.StepKeepsParamsAndTakesOneInput : Prop :=
  ∀ s t, step s = .next t → t.params = s.params ∧ t.inputs = s.inputs.tail

/-! ### Faults (60_exceptions.md) -/

/-- R105, R60: a command word, legal or not, either ends with `LAST = OK` and `ERR` as it was, or with a fault that
writes nothing but `LAST` and `ERR`. -/
def Obligations.CommandEndsInSuccessOrFault : Prop :=
  ∀ s w rest t, s.inputs = .command w :: rest → step s = .next t →
    (t.last = .ok ∧ t.err = s.err) ∨ (t.last ≠ .ok ∧ t = { s with inputs := rest, last := t.last, err := true })

/-- R107 to R115: a word that is no command reports `E_ILLEGAL` whatever else applies; a command reports the first cause
that applies, in the order of R115, and succeeds when none does; and it raises no fault but those R115 lists for it. -/
def Obligations.FirstCauseIsReported : Prop :=
  (∀ i s, match faultPriority.find? (fun e => faultCause e i s) with
    | some e => exec i s = .next { s with last := e, err := true }
    | none => ∃ t, exec i s = .next t ∧ t.last = .ok ∧ t.err = s.err) ∧
  (∀ i s t, exec i s = .next t → t.last = .ok ∨ t.last ∈ possibleFaults i) ∧
  (∀ s w rest k, s.inputs = .command w :: rest → decode w = .error k →
    step s = .next { s with inputs := rest, last := .illegal, err := true })

/-- R27: no command reads `LAST`, `ERR` or the inputs still to come: changing them changes nothing else of the result. -/
def Obligations.CommandsDoNotReadLastErrOrInputs : Prop :=
  ∀ i s t l e ins, exec i s = .next t →
    exec i { s with last := l, err := e, inputs := ins } =
      .next { t with err := if t.last = .ok then e else true, inputs := ins }

/-! ### Session commands (43_session.md) -/

/-- R95: `NOP` succeeds in every state and leaves everything but `LAST`; its word. -/
def Obligations.NopChangesOnlyLast : Prop :=
  encode .nop = 0x10000000 ∧ ∀ s, exec .nop s = .next { s with last := .ok }

/-- R96: `OPEN` in Closed begins a session; elsewhere it raises `E_OPENED`; its word. -/
def Obligations.OpenBeginsASession : Prop :=
  encode .openSession = 0x20000000 ∧
  (∀ s, s.sess = .closed → exec .openSession s = .next { s with sess := .configuring, last := .ok }) ∧
  (∀ s, s.sess ≠ .closed → exec .openSession s = .next { s with last := .opened, err := true })

/-- R97: `CLOSE` succeeds in every state; every flag and every `BV` is 0 after it, and the state then equals the reset
state but for `ERR` (for every buffer with no byte outside it, which `StepKeepsStateInv` shows). In Closed it changes
nothing but `LAST`; after it every command but `NOP`, `OPEN` and `CLOSE` raises `E_NOTREADY`; its word. -/
def Obligations.CloseForgetsTheSession : Prop :=
  encode .closeSession = 0x30000000 ∧
  (∀ s, ∃ t, exec .closeSession s = .next t ∧ t.sess = .closed ∧ t.table = none ∧ NoValidFlag t ∧
    (∀ a < s.params.bufSize, t.bv a = false) ∧ t.last = .ok ∧ t.err = s.err) ∧
  (∀ s, (∀ c ∈ s.buf, c.1 < s.params.bufSize) →
    exec .closeSession s = .next { State.reset with params := s.params, inputs := s.inputs, err := s.err }) ∧
  (∀ s, StateInv s → s.sess = .closed → exec .closeSession s = .next { s with last := .ok }) ∧
  (∀ i s t, exec .closeSession s = .next t → i ∉ [Instr.nop, .openSession, .closeSession] →
    exec i t = .next { t with last := .notReady, err := true })

/-- R98: the transition table of `SESS`, the rows of illegal words and of reset included. -/
def Obligations.SessionFollowsTheTransitionTable : Prop :=
  (∀ i s t, exec i s = .next t →
    match sessionCell i s.sess.code with
    | .error e => t.last = e ∧ t.sess = s.sess
    | .ok n => (t.last = .ok ∧ t.sess.code = n) ∨ (t.last ≠ .ok ∧ t.sess = s.sess)) ∧
  (∀ s w rest t k, s.inputs = .command w :: rest → decode w = .error k → step s = .next t →
    t.last = .illegal ∧ t.sess = s.sess) ∧
  (∀ s rest t, s.inputs = .reset :: rest → step s = .next t → t.sess.code = 0)

/-- R11: once loaded, no command but `CLOSE` changes the coefficient table, and none but `LDCAL` loads one. -/
def Obligations.TableIsImmutableInASession : Prop :=
  (∀ i s t c, s.table = some c → exec i s = .next t → i ≠ .closeSession → t.table = some c) ∧
  (∀ i s t, s.table = none → exec i s = .next t → t.table ≠ none → ∃ off, i = .ldcal off)

/-! ### Buffer commands (40_buffer.md) -/

/-- R61: `RXB` writes its byte and nothing else; its two faults; its word. -/
def Obligations.RxbStoresItsByte : Prop :=
  (∀ off imm8, encode (.rxb off imm8) = 0x40000000 ||| off.setWidth 32 <<< 8 ||| imm8.setWidth 32) ∧
  (∀ s off imm8, s.sess ≠ .closed → off.toNat + 1 ≤ s.params.bufSize →
    ∃ t, exec (.rxb off imm8) s = .next t ∧ byteAt t.buf off.toNat = some imm8 ∧ t.bv off.toNat = true ∧
      (∀ a, a ≠ off.toNat → byteAt t.buf a = byteAt s.buf a) ∧ t = { s with buf := t.buf, last := .ok }) ∧
  (∀ s off imm8, s.sess = .closed → exec (.rxb off imm8) s = .next { s with last := .notReady, err := true }) ∧
  (∀ s off imm8, s.sess ≠ .closed → off.toNat ≥ s.params.bufSize →
    exec (.rxb off imm8) s = .next { s with last := .range, err := true })

/-- R62: `RXCLR` invalidates every byte of the buffer and nothing else; its fault; its word. The clause on offsets at or
above `BUF_SIZE`, which the spec does not have, is the model's choice, log entry 9. -/
def Obligations.RxclrInvalidatesTheBuffer : Prop :=
  encode .rxclr = 0x50000000 ∧
  (∀ s, s.sess ≠ .closed →
    ∃ t, exec .rxclr s = .next t ∧ (∀ a < s.params.bufSize, t.bv a = false ∧ byteAt t.buf a = none) ∧
      (∀ a, s.params.bufSize ≤ a → byteAt t.buf a = byteAt s.buf a) ∧ t = { s with buf := t.buf, last := .ok }) ∧
  (∀ s, s.sess = .closed → exec .rxclr s = .next { s with last := .notReady, err := true })

/-! ### Decode commands (41_decode.md) -/

/-- R65: `LDCAL` loads the table from `CAL_LEN` valid bytes, consumes them and makes the session Ready; its four faults,
in test order; its word. -/
def Obligations.LdcalLoadsTheTable : Prop :=
  (∀ off, encode (.ldcal off) = 0x60000000 ||| off.setWidth 32 <<< 8) ∧
  (∀ (s : State) (off : Byte) (b : Nat → Byte), s.params.Valid → s.sess = .configuring →
    off.toNat + s.params.calLen ≤ s.params.bufSize →
    (∀ i < s.params.calLen, byteAt s.buf (off.toNat + i) = some (b i)) →
    ∃ t c, exec (.ldcal off) s = .next t ∧ t.sess = .ready c ∧
      c.t1 = (b 0).setWidth 16 ||| ((b 1).setWidth 16 <<< 8) ∧
      c.t2 = (b 2).setWidth 16 ||| ((b 3).setWidth 16 <<< 8) ∧
      c.t3 = (b 4).setWidth 16 ||| ((b 5).setWidth 16 <<< 8) ∧
      c.coefx = (List.range (s.params.calLen - 6)).map (fun i => b (6 + i)) ∧
      (∀ i < s.params.calLen, byteAt t.buf (off.toNat + i) = none) ∧
      (∀ a, a < off.toNat ∨ off.toNat + s.params.calLen ≤ a → byteAt t.buf a = byteAt s.buf a) ∧
      t = { s with sess := t.sess, buf := t.buf, last := .ok }) ∧
  (∀ s off, s.sess = .closed → exec (.ldcal off) s = .next { s with last := .notReady, err := true }) ∧
  (∀ s off c, s.sess = .ready c → exec (.ldcal off) s = .next { s with last := .locked, err := true }) ∧
  (∀ (s : State) (off : Byte), s.sess = .configuring → off.toNat + s.params.calLen > s.params.bufSize →
    exec (.ldcal off) s = .next { s with last := .range, err := true }) ∧
  (∀ (s : State) (off : Byte), s.sess = .configuring → off.toNat + s.params.calLen ≤ s.params.bufSize →
    (∃ i < s.params.calLen, s.bv (off.toNat + i) = false) →
    exec (.ldcal off) s = .next { s with last := .stale, err := true })

/-- R66: `ASM.q` assembles its three bytes into `RAW_q` and consumes them; `ASM.T` begins a new measurement cycle, the
other two clear no register; their three faults, in test order; their words. -/
def Obligations.AsmAssemblesTheSample : Prop :=
  (∀ off, encode (.asmT off) = 0x70000000 ||| off.setWidth 32 <<< 8 ∧
    encode (.asmP off) = 0x70000000 ||| 1 <<< 24 ||| off.setWidth 32 <<< 8 ∧
    encode (.asmH off) = 0x70000000 ||| 2 <<< 24 ||| off.setWidth 32 <<< 8) ∧
  (∀ (s : State) (c : Coeffs) (off msb lsb xlsb : Byte), s.sess = .ready c → off.toNat + 3 ≤ s.params.bufSize →
    byteAt s.buf off.toNat = some msb → byteAt s.buf (off.toNat + 1) = some lsb →
    byteAt s.buf (off.toNat + 2) = some xlsb →
    ∃ raw : BitVec 20, raw = msb.setWidth 20 <<< 12 ||| lsb.setWidth 20 <<< 4 ||| xlsb.setWidth 20 >>> 4 ∧
    ∃ buf, (∀ i < 3, byteAt buf (off.toNat + i) = none) ∧
      (∀ a, a < off.toNat ∨ off.toNat + 3 ≤ a → byteAt buf a = byteAt s.buf a) ∧
      exec (.asmT off) s = .next { s with
        rawT := some raw, fine := none, outT := none, outP := none, outH := none, buf := buf, last := .ok } ∧
      exec (.asmP off) s = .next { s with rawP := some raw, buf := buf, last := .ok } ∧
      exec (.asmH off) s = .next { s with rawH := some raw, buf := buf, last := .ok }) ∧
  (∀ (s : State) (off : Byte) (i : Instr), i ∈ [Instr.asmT off, .asmP off, .asmH off] →
    ((∀ c, s.sess ≠ .ready c) → exec i s = .next { s with last := .notReady, err := true }) ∧
    (∀ c, s.sess = .ready c → off.toNat + 3 > s.params.bufSize →
      exec i s = .next { s with last := .range, err := true }) ∧
    (∀ c, s.sess = .ready c → off.toNat + 3 ≤ s.params.bufSize → (∃ k < 3, s.bv (off.toNat + k) = false) →
      exec i s = .next { s with last := .stale, err := true }))

/-- R67: the two 16-bit readings of a byte pair, and that every pair of values can be loaded. -/
def Obligations.CoefficientByteLaws : Prop :=
  (∀ lo hi : Byte, (le16 lo hi).toNat = lo.toNat + 256 * hi.toNat ∧
    (le16 lo hi).toInt = if lo.toNat + 256 * hi.toNat ≤ 32767 then (lo.toNat : Int) + 256 * hi.toNat
      else (lo.toNat : Int) + 256 * hi.toNat - 65536) ∧
  (∀ lo hi lo' hi' : Byte, le16 lo hi = le16 lo' hi' → lo = lo' ∧ hi = hi') ∧
  (∀ v : BitVec 16, ∃ lo hi : Byte, le16 lo hi = v)

/-- R68: the sample is `{msb, lsb, xlsb[7:4]}`, and every `u20` value is reachable. -/
def Obligations.SampleByteLaws : Prop :=
  (∀ msb lsb xlsb : Byte, raw20 msb lsb xlsb = msb ++ lsb ++ xlsb.extractLsb' 4 4 ∧
    (raw20 msb lsb xlsb).toNat = 4096 * msb.toNat + 16 * lsb.toNat + xlsb.toNat / 16) ∧
  (∀ v : BitVec 20, ∃ msb lsb xlsb : Byte, raw20 msb lsb xlsb = v)

/-- R38: a successful `ASM.q` consumes its bytes, so that the same command again raises `E_STALE`; `RXB` is
idempotent. -/
def Obligations.ReadsConsumeAndRxbIsIdempotent : Prop :=
  (∀ s t (off : Byte) (i : Instr), i ∈ [Instr.asmT off, .asmP off, .asmH off] → exec i s = .next t → t.last = .ok →
    exec i t = .next { t with last := .stale, err := true }) ∧
  (∀ s t off imm8, exec (.rxb off imm8) s = .next t → t.last = .ok → exec (.rxb off imm8) t = .next t)

/-! ### Compensation (42_compensation.md) -/

/-- R73: in Ready with a sample, `COMPT` writes `FINE` and `OUT_T` as the rule's pseudocode over the rationals gives them,
sets their flags and keeps everything else; its two faults; its word. -/
def Obligations.CompTWritesTheFormulaResults : Prop :=
  encode .compT = 0x80000000 ∧
  (∀ s c raw, s.sess = .ready c → s.rawT = some raw →
    exec .compT s = .next { s with
      fine := some (BitVec.ofInt 32 (exactFine raw c)), outT := some (exactOut raw c), last := .ok } ∧
    (BitVec.ofInt 32 (exactFine raw c)).toInt = exactFine raw c) ∧
  (∀ s, (∀ c, s.sess ≠ .ready c) → exec .compT s = .next { s with last := .notReady, err := true }) ∧
  (∀ s c, s.sess = .ready c → s.rawT = none → exec .compT s = .next { s with last := .noSample, err := true })

/-- R91: `COMPP` writes `CompP(RAW_P, COEFX, FINE)` to `OUT_P`; its four faults, in test order; its word. -/
def Obligations.CompPWritesThePressure : Prop :=
  encode .compP = 0x90000000 ∧
  (∀ s c raw f, s.sess = .ready c → s.params.hasP = true → s.rawP = some raw → s.fine = some f →
    exec .compP s = .next { s with outP := some (Config.compP raw c.coefx f), last := .ok }) ∧
  (∀ s, (∀ c, s.sess ≠ .ready c) → exec .compP s = .next { s with last := .notReady, err := true }) ∧
  (∀ s c, s.sess = .ready c → s.params.hasP = false → exec .compP s = .next { s with last := .unimpl, err := true }) ∧
  (∀ s c, s.sess = .ready c → s.params.hasP = true → s.rawP = none →
    exec .compP s = .next { s with last := .noSample, err := true }) ∧
  (∀ s c raw, s.sess = .ready c → s.params.hasP = true → s.rawP = some raw → s.fine = none →
    exec .compP s = .next { s with last := .noFine, err := true })

/-- R92: `COMPH` writes `CompH(RAW_H, COEFX, FINE)` to `OUT_H`; its four faults, in test order; its word. -/
def Obligations.CompHWritesTheHumidity : Prop :=
  encode .compH = 0xA0000000 ∧
  (∀ s c raw f, s.sess = .ready c → s.params.hasH = true → s.rawH = some raw → s.fine = some f →
    exec .compH s = .next { s with outH := some (Config.compH raw c.coefx f), last := .ok }) ∧
  (∀ s, (∀ c, s.sess ≠ .ready c) → exec .compH s = .next { s with last := .notReady, err := true }) ∧
  (∀ s c, s.sess = .ready c → s.params.hasH = false → exec .compH s = .next { s with last := .unimpl, err := true }) ∧
  (∀ s c, s.sess = .ready c → s.params.hasH = true → s.rawH = none →
    exec .compH s = .next { s with last := .noSample, err := true }) ∧
  (∀ s c raw, s.sess = .ready c → s.params.hasH = true → s.rawH = some raw → s.fine = none →
    exec .compH s = .next { s with last := .noFine, err := true })

/-- R81: the stage form equals MAS's formula evaluated in binary64, one rounding an operation. -/
def Obligations.StageFormEqualsMasFormula : Prop :=
  ∀ raw c, (compFine raw c).toInt = masFine raw c ∧ compOut raw c = masCelsius raw c

/-- R7: `RN(x)` has a significand of 53 bits, no value of that form is nearer to `x`, and where another one is equally
near the significand of `RN(x)` is even. -/
def Obligations.RnIsNearestTiesToEven : Prop :=
  ∀ x : ℚ, x ≠ 0 → ∃ m e : ℤ, 2 ^ 52 ≤ |m| ∧ |m| < 2 ^ 53 ∧ rn x = (m : ℚ) * 2 ^ e ∧
    ∀ m' e' : ℤ, 2 ^ 52 ≤ |m'| → |m'| < 2 ^ 53 →
      |rn x - x| ≤ |(m' : ℚ) * 2 ^ e' - x| ∧
      (|rn x - x| = |(m' : ℚ) * 2 ^ e' - x| → (m' : ℚ) * 2 ^ e' = rn x ∨ m % 2 = 0)

/-- R9: sign, biased exponent and fraction of the 64-bit pattern, and the patterns of the two zeros. -/
def Obligations.PatternHasTheBinary64Fields : Prop :=
  (∀ (neg : Bool) (m : ℕ) (e : ℤ), 2 ^ 52 ≤ m → m < 2 ^ 53 → -1074 ≤ e → e ≤ 971 →
    (bits64 (.normal neg m e)).getLsbD 63 = neg ∧
    (((bits64 (.normal neg m e)).extractLsb' 52 11).toNat : ℤ) = e + 1075 ∧
    ((bits64 (.normal neg m e)).extractLsb' 0 52).toNat = m - 2 ^ 52) ∧
  bits64 (.zero false) = 0 ∧ bits64 (.zero true) = 0x8000000000000000

/-- R82: `R53(n) = RN(n)` for every non-zero integer, and `R53(0) = 0`. -/
def Obligations.R53IsRnOnIntegers : Prop :=
  r53 0 = 0 ∧ ∀ n : ℤ, n ≠ 0 → ((r53 n : ℤ) : ℚ) = rn n

/-- R75 to R79: every intermediate lies in the range its rule states. -/
def Obligations.StagesStayInTheirRanges : Prop :=
  ∀ (raw : BitVec 20) (t1 t2 t3 : BitVec 16),
    let d := stageD raw t1
    (-1048560 ≤ d ∧ d ≤ 1048575) ∧
    (-34359705600 ≤ stageP1 d t2 ∧ stageP1 d t2 ≤ 34359705600) ∧
    (0 ≤ stageQ d ∧ stageQ d ≤ 1099509530625) ∧
    (-36028728299520000 ≤ stageP2 d t3 ∧ stageP2 d t3 ≤ 36028728299520000) ∧
    (-(2 : ℤ) ^ 56 < stageN d t2 t3 ∧ stageN d t2 t3 < (2 : ℤ) ^ 56) ∧
    (-72057490958745600 ≤ stageS d t2 t3 ∧ stageS d t2 t3 ≤ 72057490958745600)

/-- R86: `|FINE| <= 4194298`; a non-zero `OUT_T` has a biased exponent between 976 and 1032, so that it is never a
subnormal, an infinity or a NaN; and a zero `OUT_T` is one of the two zeros. -/
def Obligations.CompTResultsStayInRange : Prop :=
  ∀ raw c,
    (-4194298 ≤ (compFine raw c).toInt ∧ (compFine raw c).toInt ≤ 4194298) ∧
    (stageS (stageD raw c.t1) c.t2 c.t3 ≠ 0 →
      976 ≤ ((compOut raw c).extractLsb' 52 11).toNat ∧ ((compOut raw c).extractLsb' 52 11).toNat ≤ 1032) ∧
    (stageS (stageD raw c.t1) c.t2 c.t3 = 0 → compOut raw c = 0 ∨ compOut raw c = 0x8000000000000000)

/-- R85: `s = 0` exactly when `N = 0`; then `FINE = 0` and `OUT_T` is `-0` if and only if `d = 0`, `T2 < 0` and
`T3 < 0`, and `+0` in every other case. -/
def Obligations.ZeroResultsHaveTheirSign : Prop :=
  ∀ raw c,
    let d := stageD raw c.t1
    (stageS d c.t2 c.t3 = 0 ↔ stageN d c.t2 c.t3 = 0) ∧
    (stageN d c.t2 c.t3 = 0 → compFine raw c = 0 ∧
      compOut raw c = if d = 0 ∧ c.t2.toInt < 0 ∧ c.t3.toInt < 0 then 0x8000000000000000 else 0)

/-- R88: the values `COMPT` writes depend on `RAW_T` and the table alone, and a second `COMPT` leaves the state as the
first left it. -/
def Obligations.CompTIsPureAndRepeatable : Prop :=
  (∀ s s' t t' c c', s.sess = .ready c → s'.sess = .ready c' → c.t1 = c'.t1 → c.t2 = c'.t2 → c.t3 = c'.t3 →
    s.rawT = s'.rawT → exec .compT s = .next t → exec .compT s' = .next t' → t.last = .ok →
    t'.last = .ok ∧ t.fine = t'.fine ∧ t.outT = t'.outT) ∧
  (∀ s t, exec .compT s = .next t → t.last = .ok → exec .compT t = .next t)

/-! ### Flags and the status word (10_state.md) -/

/-- R19: the fields of `STATUS`; reserved bits read 0. -/
def Obligations.StatusWordFields : Prop :=
  ∀ s : State,
    s.statusWord.extractLsb' 0 2 = s.sess.code ∧ s.statusWord.getLsbD 2 = s.rvT ∧ s.statusWord.getLsbD 3 = s.rvP ∧
    s.statusWord.getLsbD 4 = s.rvH ∧ s.statusWord.getLsbD 5 = s.fv ∧ s.statusWord.getLsbD 6 = s.ovT ∧
    s.statusWord.getLsbD 7 = s.ovP ∧ s.statusWord.getLsbD 8 = s.ovH ∧ s.statusWord.extractLsb' 9 3 = 0 ∧
    s.statusWord.extractLsb' 12 4 = s.last.code ∧ s.statusWord.getLsbD 16 = s.err ∧
    s.statusWord.extractLsb' 17 15 = 0

/-- R16: each valid flag is set and cleared by the successful commands its row names and by no other; a failing command
changes none; reset clears all; and a flag is 1 exactly when its register holds a value. -/
def Obligations.FlagsFollowTheirEvents : Prop :=
  (∀ i s t, exec i s = .next t → t.last = .ok →
    (t.rvT = match i with | .asmT _ => true | .closeSession => false | _ => s.rvT) ∧
    (t.rvP = match i with | .asmP _ => true | .closeSession => false | _ => s.rvP) ∧
    (t.rvH = match i with | .asmH _ => true | .closeSession => false | _ => s.rvH) ∧
    (t.fv = match i with | .compT => true | .asmT _ => false | .closeSession => false | _ => s.fv) ∧
    (t.ovT = match i with | .compT => true | .asmT _ => false | .closeSession => false | _ => s.ovT) ∧
    (t.ovP = match i with | .compP => true | .asmT _ => false | .closeSession => false | _ => s.ovP) ∧
    (t.ovH = match i with | .compH => true | .asmT _ => false | .closeSession => false | _ => s.ovH) ∧
    (∀ a < s.params.bufSize, t.bv a = match i with
      | .rxb off _ => if a = off.toNat then true else s.bv a
      | .ldcal off => if off.toNat ≤ a ∧ a < off.toNat + s.params.calLen then false else s.bv a
      | .asmT off | .asmP off | .asmH off => if off.toNat ≤ a ∧ a < off.toNat + 3 then false else s.bv a
      | .rxclr | .closeSession => false
      | _ => s.bv a)) ∧
  (∀ i s t, exec i s = .next t → t.last ≠ .ok →
    t.rvT = s.rvT ∧ t.rvP = s.rvP ∧ t.rvH = s.rvH ∧ t.fv = s.fv ∧ t.ovT = s.ovT ∧ t.ovP = s.ovP ∧ t.ovH = s.ovH ∧
    ∀ a, t.bv a = s.bv a) ∧
  (∀ s rest t, s.inputs = .reset :: rest → step s = .next t → NoValidFlag t ∧ ∀ a, t.bv a = false) ∧
  (∀ s : State, (s.rvT = true ↔ ∃ v, s.rawT = some v) ∧ (s.rvP = true ↔ ∃ v, s.rawP = some v) ∧
    (s.rvH = true ↔ ∃ v, s.rawH = some v) ∧ (s.fv = true ↔ ∃ v, s.fine = some v) ∧
    (s.ovT = true ↔ ∃ v, s.outT = some v) ∧ (s.ovP = true ↔ ∃ v, s.outP = some v) ∧
    (s.ovH = true ↔ ∃ v, s.outH = some v) ∧ ∀ a, s.bv a = true ↔ ∃ v, byteAt s.buf a = some v)

/-- R26: the ports show the status word and the registers, and a port whose flag is 0 carries no value. -/
def Obligations.PortsShowTheRegisters : Prop :=
  ∀ s : State, s.ports.status = s.statusWord ∧
    s.ports.rawT = s.rawT ∧ s.ports.rawP = s.rawP ∧ s.ports.rawH = s.rawH ∧ s.ports.fine = s.fine ∧
    s.ports.outT = s.outT ∧ s.ports.outP = s.outP ∧ s.ports.outH = s.outH ∧
    (s.rvT = false → s.ports.rawT = none) ∧ (s.rvP = false → s.ports.rawP = none) ∧
    (s.rvH = false → s.ports.rawH = none) ∧ (s.fv = false → s.ports.fine = none) ∧
    (s.ovT = false → s.ports.outT = none) ∧ (s.ovP = false → s.ports.outP = none) ∧
    (s.ovH = false → s.ports.outH = none)

/-! ### Frames -/

/-- R27: `NOP` and `OPEN` change nothing but `SESS` (`OPEN` only), `LAST` and, on a fault, `ERR`; every byte of the
buffer reads as before. -/
def Obligations.FrameOfNopAndOpen : Prop :=
  ∀ i s t, i ∈ [Instr.nop, .openSession] → exec i s = .next t →
    t = { s with sess := t.sess, last := t.last, err := t.err } ∧
    (i = .nop → t.sess = s.sess ∧ t.err = s.err) ∧ (∀ a, byteAt t.buf a = byteAt s.buf a)

/-- R27, R97: `CLOSE` leaves `ERR` and the model's own fields `params` and `inputs`. The clause on offsets at or above
`BUF_SIZE`, which the spec does not have, is the model's choice, log entry 9. -/
def Obligations.FrameOfClose : Prop :=
  ∀ s t, exec .closeSession s = .next t →
    t.err = s.err ∧ t.params = s.params ∧ t.inputs = s.inputs ∧
    (∀ a, s.params.bufSize ≤ a → byteAt t.buf a = byteAt s.buf a)

/-- R27: `RXB` changes the byte at the offset it computes, `LAST` and, on a fault, `ERR`; nothing else. -/
def Obligations.FrameOfRxb : Prop :=
  ∀ s t off imm8, exec (.rxb off imm8) s = .next t →
    t = { s with buf := t.buf, last := t.last, err := t.err } ∧
    (∀ a, offset off = a → ∀ b, b ≠ a → byteAt t.buf b = byteAt s.buf b)

/-- R27: `RXCLR` changes the buffer's bytes, `LAST` and, on a fault, `ERR`; nothing else. The clause on offsets at or
above `BUF_SIZE`, which the spec does not have, is the model's choice, log entry 9. -/
def Obligations.FrameOfRxclr : Prop :=
  ∀ s t, exec .rxclr s = .next t →
    t = { s with buf := t.buf, last := t.last, err := t.err } ∧
    (∀ b, s.params.bufSize ≤ b → byteAt t.buf b = byteAt s.buf b)

/-- R27: `LDCAL` changes `SESS` with the table, the `CAL_LEN` bytes from its offset, `LAST` and, on a fault, `ERR`;
nothing else. -/
def Obligations.FrameOfLdcal : Prop :=
  ∀ s t off, exec (.ldcal off) s = .next t →
    t = { s with sess := t.sess, buf := t.buf, last := t.last, err := t.err } ∧
    (∀ a, offset off = a → ∀ b, b < a ∨ a + s.params.calLen ≤ b → byteAt t.buf b = byteAt s.buf b)

/-- R27: `ASM.q` changes `RAW_q`, the three bytes from its offset, `LAST` and, on a fault, `ERR`; `ASM.T` also `FINE` and
the three outputs; nothing else. -/
def Obligations.FrameOfAsm : Prop :=
  ∀ (i : Instr) (s t : State) (off : Byte), i ∈ [Instr.asmT off, .asmP off, .asmH off] → exec i s = .next t →
    t.params = s.params ∧ t.inputs = s.inputs ∧ t.sess = s.sess ∧
    (i ≠ .asmT off → t.rawT = s.rawT ∧ t.fine = s.fine ∧ t.outT = s.outT ∧ t.outP = s.outP ∧ t.outH = s.outH) ∧
    (i ≠ .asmP off → t.rawP = s.rawP) ∧ (i ≠ .asmH off → t.rawH = s.rawH) ∧
    (∀ a, offset off = a → ∀ b, b < a ∨ a + 3 ≤ b → byteAt t.buf b = byteAt s.buf b)

/-- R27: `COMPT` changes `FINE`, `OUT_T`; `COMPP` changes `OUT_P`; `COMPH` changes `OUT_H`; each also `LAST` and, on a
fault, `ERR`; nothing else, and every byte of the buffer reads as before. -/
def Obligations.FrameOfCompensation : Prop :=
  ∀ i s t, i ∈ [Instr.compT, .compP, .compH] → exec i s = .next t →
    t = { s with fine := t.fine, outT := t.outT, outP := t.outP, outH := t.outH, last := t.last, err := t.err } ∧
    (i ≠ .compT → t.fine = s.fine ∧ t.outT = s.outT) ∧
    (i ≠ .compP → t.outP = s.outP) ∧ (i ≠ .compH → t.outH = s.outH) ∧
    (∀ a, byteAt t.buf a = byteAt s.buf a)

/-! ### Invariants and runs -/

/-- R25: the state right after reset meets the invariant, for the default parameters; so does the state that the
`RESET` input leaves, for every legal choice of parameters and any inputs. -/
def Obligations.ResetMeetsTheInvariant : Prop :=
  StateInv State.reset ∧ ∀ s : State, s.params.Valid → StateInv s.applyReset

/-- R25: every step keeps the invariant, successful or not. -/
def Obligations.StepKeepsStateInv : Prop :=
  ∀ s t, StateInv s → step s = .next t → StateInv t

/-- R17, R88: every step keeps it true that valid results belong to the sample and the table now held, and it is true
at reset. -/
def Obligations.StepKeepsResultsCurrent : Prop :=
  ResultsCurrent State.reset ∧ ∀ s t, ResultsCurrent s → step s = .next t → ResultsCurrent t

/-- R136, R117: every run of a host's list ends with the list exhausted, keeps the invariant and, when the list holds no
reset, is fault-free exactly when it began so and every command of it reported `OK`. R136 speaks of a list of commands;
that the list stands in the state and may hold `RESET` inputs is the model's choice, log entry 2. -/
def Obligations.RunsEndAndAreFaultFreeWhenEveryCommandIs : Prop :=
  ∀ s l, ∃ t, runInputs s l = .next t ∧ t.inputs = [] ∧ (StateInv s → StateInv t) ∧
    (.reset ∉ l →
      (FaultFree t ↔ FaultFree s ∧
        ∀ k < l.length, ∀ u, Sys2Proof.core.run (k + 1) { s with inputs := l } = .next u → u.last = .ok))

/-! ### The assembler (30_encoding.md R54, R55) -/

/-- R54: the words of the twelve forms as numbers, and the refusal of an operand outside 0 .. 255. -/
def Obligations.AssemblerWordsAndRefusals : Prop :=
  (∀ n, assembleLine n .nop = some [0x10000000] ∧ assembleLine n .openSession = some [0x20000000] ∧
    assembleLine n .closeSession = some [0x30000000] ∧ assembleLine n .rxclr = some [0x50000000] ∧
    assembleLine n .compT = some [0x80000000] ∧ assembleLine n .compP = some [0x90000000] ∧
    assembleLine n .compH = some [0xA0000000]) ∧
  (∀ n off byte, assembleLine n (.rxb off byte) =
    if off ≤ 255 ∧ byte ≤ 255 then some [BitVec.ofNat 32 (0x40000000 + off * 256 + byte)] else none) ∧
  (∀ n off, assembleLine n (.ldcal off) = if off ≤ 255 then some [BitVec.ofNat 32 (0x60000000 + off * 256)] else none) ∧
  (∀ n off, assembleLine n (.asm .temperature off) =
    if off ≤ 255 then some [BitVec.ofNat 32 (0x70000000 + off * 256)] else none) ∧
  (∀ n off, assembleLine n (.asm .pressure off) =
    if off ≤ 255 then some [BitVec.ofNat 32 (0x71000000 + off * 256)] else none) ∧
  (∀ n off, assembleLine n (.asm .humidity off) =
    if off ≤ 255 then some [BitVec.ofNat 32 (0x72000000 + off * 256)] else none)

/-- R55: the pseudo-instructions expand to the commands of their rows. -/
def Obligations.PseudoInstructionsExpand : Prop :=
  (∀ off bytes, expandLine (.rxburst off bytes) =
    (List.range bytes.length).map (fun k => .rxb (BitVec.ofNat 8 (off + k)) (BitVec.ofNat 8 (bytes.getD k 0)))) ∧
  (∀ bytes, expandLine (.loadcal bytes) = expandLine (.rxburst 0 bytes) ++ [.ldcal 0]) ∧
  (∀ q m l x, expandLine (.sample q m l x) = expandLine (.rxburst 0 [m, l, x]) ++ expandLine (.asm q 0)) ∧
  (∀ m l x, expandLine (.measureT m l x) = expandLine (.sample .temperature m l x) ++ [.compT])
end

