-- ==== Sys2Proof/Laws/Arith.lean ====
section
/-!
SUPPORT. The bit length and the integer rounding `R53` of 42_compensation.md R82.
-/
namespace Sys2Proof.Machine

@[simp] theorem bitLength_zero : bitLength 0 = 0 := rfl

theorem bitLength_pos {a : Nat} (h : a ≠ 0) : bitLength a = Nat.log2 a + 1 := by
  simp [bitLength, h]

/-- `a < 2^L` for the bit length `L` of `a`. -/
theorem lt_two_pow_bitLength (a : Nat) : a < 2 ^ bitLength a := by
  by_cases h : a = 0
  · simp [h]
  · rw [bitLength_pos h]
    exact Nat.lt_log2_self

/-- `2^(L-1) <= a` for the bit length `L` of a non-zero `a`. -/
theorem two_pow_le_of_bitLength {a : Nat} (h : a ≠ 0) : 2 ^ (bitLength a - 1) ≤ a := by
  rw [bitLength_pos h, Nat.add_sub_cancel]
  exact Nat.log2_self_le h

/-- The bit length is at most 53 exactly below `2^53`. -/
theorem bitLength_le_53 {a : Nat} : bitLength a ≤ 53 ↔ a < 2 ^ 53 := by
  constructor
  · intro h
    exact (lt_two_pow_bitLength a).trans_le (Nat.pow_le_pow_right (by norm_num) h)
  · intro h
    by_cases ha : a = 0
    · simp [ha]
    · by_contra hl
      have h1 : 2 ^ 53 ≤ 2 ^ (bitLength a - 1) := Nat.pow_le_pow_right (by norm_num) (by omega)
      exact absurd (h1.trans (two_pow_le_of_bitLength ha)) (Nat.not_le.mpr h)

@[simp] theorem r53_zero : r53 0 = 0 := rfl

/-- `R53` changes no magnitude below `2^53`. -/
theorem r53Nat_of_lt {a : Nat} (h : a < 2 ^ 53) : r53Nat a = a := by
  simp [r53Nat, bitLength_le_53.mpr h]

theorem r53_of_lt {n : Int} (h : n.natAbs < 2 ^ 53) : r53 n = n := by
  rw [r53, r53Nat_of_lt h, Int.sign_mul_natAbs]

/-- Above `2^53` the result is the quotient by `2^k` or the next one, shifted back. -/
theorem r53Nat_cases (a : Nat) :
    r53Nat a = a ∨ r53Nat a = (a >>> (bitLength a - 53)) <<< (bitLength a - 53) ∨
      r53Nat a = (a >>> (bitLength a - 53) + 1) <<< (bitLength a - 53) := by
  simp only [r53Nat]
  split
  · exact .inl rfl
  · split
    · exact .inr (.inr rfl)
    · exact .inr (.inl rfl)

end Sys2Proof.Machine
end

