-- ==== Sys2Proof/Laws/Encoding.lean ====
section
/-!
SUPPORT. The fields of a packed word and what the masks of the opcode map leave of it (30_encoding.md R46, R49).
-/
namespace Sys2Proof

@[simp] theorem opField_packFields (op : BitVec 4) (q : BitVec 2) (off imm8 : Byte) :
    opField (packFields op q off imm8) = op := by
  apply BitVec.eq_of_getLsbD_eq
  intro i hi
  simp only [opField, packFields, BitVec.getLsbD_extractLsb', BitVec.getLsbD_append]
  interval_cases i <;> simp

@[simp] theorem qField_packFields (op : BitVec 4) (q : BitVec 2) (off imm8 : Byte) :
    qField (packFields op q off imm8) = q := by
  apply BitVec.eq_of_getLsbD_eq
  intro i hi
  simp only [qField, packFields, BitVec.getLsbD_extractLsb', BitVec.getLsbD_append]
  interval_cases i <;> simp

@[simp] theorem offField_packFields (op : BitVec 4) (q : BitVec 2) (off imm8 : Byte) :
    offField (packFields op q off imm8) = off := by
  apply BitVec.eq_of_getLsbD_eq
  intro i hi
  simp only [offField, packFields, BitVec.getLsbD_extractLsb', BitVec.getLsbD_append]
  interval_cases i <;> simp

@[simp] theorem immField_packFields (op : BitVec 4) (q : BitVec 2) (off imm8 : Byte) :
    immField (packFields op q off imm8) = imm8 := by
  apply BitVec.eq_of_getLsbD_eq
  intro i hi
  simp only [immField, packFields, BitVec.getLsbD_extractLsb', BitVec.getLsbD_append]
  interval_cases i <;> simp

/-- The fields of a packed word as a union of shifted fields (30_encoding.md R54). -/
theorem packFields_eq_or (op : BitVec 4) (q : BitVec 2) (off imm8 : Byte) :
    packFields op q off imm8 =
      op.setWidth 32 <<< 28 ||| q.setWidth 32 <<< 24 ||| off.setWidth 32 <<< 8 ||| imm8.setWidth 32 := by
  apply BitVec.eq_of_getLsbD_eq
  intro i hi
  simp only [packFields, BitVec.getLsbD_or, BitVec.getLsbD_append, BitVec.getLsbD_shiftLeft, BitVec.getLsbD_setWidth]
  interval_cases i <;> simp

/-- The mask of formats O and Q (R47) hides `off` only. -/
theorem packFields_and_offMask (op : BitVec 4) (q : BitVec 2) (off imm8 : Byte) :
    packFields op q off imm8 &&& 0xFFFF00FF = packFields op q 0 imm8 := by
  apply BitVec.eq_of_getLsbD_eq
  intro i hi
  simp only [packFields, BitVec.getLsbD_and, BitVec.getLsbD_append]
  interval_cases i <;> simp

/-- The mask of format B (R47) hides `off` and `imm8`. -/
theorem packFields_and_byteMask (op : BitVec 4) (q : BitVec 2) (off imm8 : Byte) :
    packFields op q off imm8 &&& 0xFFFF0000 = packFields op q 0 0 := by
  apply BitVec.eq_of_getLsbD_eq
  intro i hi
  simp only [packFields, BitVec.getLsbD_and, BitVec.getLsbD_append]
  interval_cases i <;> simp

end Sys2Proof
end

