-- ==== Sys2Proof/Laws/State.lean ====
section
/-!
SUPPORT. What each update of the state leaves in each field, one lemma per field, so that no proof unfolds an update.
-/
namespace Sys2Proof.Machine

/-! ### `State.raise`: fault entry changes `LAST` and `ERR` only (60_exceptions.md R105) -/

@[simp] theorem State.raise_params (s : State) (e : StatusCode) : (s.raise e).params = s.params := rfl
@[simp] theorem State.raise_inputs (s : State) (e : StatusCode) : (s.raise e).inputs = s.inputs := rfl
@[simp] theorem State.raise_sess (s : State) (e : StatusCode) : (s.raise e).sess = s.sess := rfl
@[simp] theorem State.raise_rawT (s : State) (e : StatusCode) : (s.raise e).rawT = s.rawT := rfl
@[simp] theorem State.raise_rawP (s : State) (e : StatusCode) : (s.raise e).rawP = s.rawP := rfl
@[simp] theorem State.raise_rawH (s : State) (e : StatusCode) : (s.raise e).rawH = s.rawH := rfl
@[simp] theorem State.raise_fine (s : State) (e : StatusCode) : (s.raise e).fine = s.fine := rfl
@[simp] theorem State.raise_outT (s : State) (e : StatusCode) : (s.raise e).outT = s.outT := rfl
@[simp] theorem State.raise_outP (s : State) (e : StatusCode) : (s.raise e).outP = s.outP := rfl
@[simp] theorem State.raise_outH (s : State) (e : StatusCode) : (s.raise e).outH = s.outH := rfl
@[simp] theorem State.raise_last (s : State) (e : StatusCode) : (s.raise e).last = e := rfl
@[simp] theorem State.raise_err (s : State) (e : StatusCode) : (s.raise e).err = true := rfl
@[simp] theorem State.raise_buf (s : State) (e : StatusCode) : (s.raise e).buf = s.buf := rfl

/-! ### `State.complete`: `done` changes `LAST` only (40_buffer.md R60) -/

@[simp] theorem State.complete_params (s : State) : (s.complete).params = s.params := rfl
@[simp] theorem State.complete_inputs (s : State) : (s.complete).inputs = s.inputs := rfl
@[simp] theorem State.complete_sess (s : State) : (s.complete).sess = s.sess := rfl
@[simp] theorem State.complete_rawT (s : State) : (s.complete).rawT = s.rawT := rfl
@[simp] theorem State.complete_rawP (s : State) : (s.complete).rawP = s.rawP := rfl
@[simp] theorem State.complete_rawH (s : State) : (s.complete).rawH = s.rawH := rfl
@[simp] theorem State.complete_fine (s : State) : (s.complete).fine = s.fine := rfl
@[simp] theorem State.complete_outT (s : State) : (s.complete).outT = s.outT := rfl
@[simp] theorem State.complete_outP (s : State) : (s.complete).outP = s.outP := rfl
@[simp] theorem State.complete_outH (s : State) : (s.complete).outH = s.outH := rfl
@[simp] theorem State.complete_last (s : State) : (s.complete).last = .ok := rfl
@[simp] theorem State.complete_err (s : State) : (s.complete).err = s.err := rfl
@[simp] theorem State.complete_buf (s : State) : (s.complete).buf = s.buf := rfl

/-! ### `State.memInvalidate`: `MemInvalidate` changes the buffer only (20_memory.md R36) -/

@[simp] theorem State.memInvalidate_params (s : State) (a n : Nat) : (s.memInvalidate a n).params = s.params := rfl
@[simp] theorem State.memInvalidate_inputs (s : State) (a n : Nat) : (s.memInvalidate a n).inputs = s.inputs := rfl
@[simp] theorem State.memInvalidate_sess (s : State) (a n : Nat) : (s.memInvalidate a n).sess = s.sess := rfl
@[simp] theorem State.memInvalidate_rawT (s : State) (a n : Nat) : (s.memInvalidate a n).rawT = s.rawT := rfl
@[simp] theorem State.memInvalidate_rawP (s : State) (a n : Nat) : (s.memInvalidate a n).rawP = s.rawP := rfl
@[simp] theorem State.memInvalidate_rawH (s : State) (a n : Nat) : (s.memInvalidate a n).rawH = s.rawH := rfl
@[simp] theorem State.memInvalidate_fine (s : State) (a n : Nat) : (s.memInvalidate a n).fine = s.fine := rfl
@[simp] theorem State.memInvalidate_outT (s : State) (a n : Nat) : (s.memInvalidate a n).outT = s.outT := rfl
@[simp] theorem State.memInvalidate_outP (s : State) (a n : Nat) : (s.memInvalidate a n).outP = s.outP := rfl
@[simp] theorem State.memInvalidate_outH (s : State) (a n : Nat) : (s.memInvalidate a n).outH = s.outH := rfl
@[simp] theorem State.memInvalidate_last (s : State) (a n : Nat) : (s.memInvalidate a n).last = s.last := rfl
@[simp] theorem State.memInvalidate_err (s : State) (a n : Nat) : (s.memInvalidate a n).err = s.err := rfl
@[simp] theorem State.memInvalidate_buf (s : State) (a n : Nat) : (s.memInvalidate a n).buf = dropBytes s.buf a n := rfl

/-! ### `State.newCycle`: a new cycle clears `FINE` and the outputs only (10_state.md R17) -/

@[simp] theorem State.newCycle_params (s : State) : (s.newCycle).params = s.params := rfl
@[simp] theorem State.newCycle_inputs (s : State) : (s.newCycle).inputs = s.inputs := rfl
@[simp] theorem State.newCycle_sess (s : State) : (s.newCycle).sess = s.sess := rfl
@[simp] theorem State.newCycle_rawT (s : State) : (s.newCycle).rawT = s.rawT := rfl
@[simp] theorem State.newCycle_rawP (s : State) : (s.newCycle).rawP = s.rawP := rfl
@[simp] theorem State.newCycle_rawH (s : State) : (s.newCycle).rawH = s.rawH := rfl
@[simp] theorem State.newCycle_fine (s : State) : (s.newCycle).fine = none := rfl
@[simp] theorem State.newCycle_outT (s : State) : (s.newCycle).outT = none := rfl
@[simp] theorem State.newCycle_outP (s : State) : (s.newCycle).outP = none := rfl
@[simp] theorem State.newCycle_outH (s : State) : (s.newCycle).outH = none := rfl
@[simp] theorem State.newCycle_last (s : State) : (s.newCycle).last = s.last := rfl
@[simp] theorem State.newCycle_err (s : State) : (s.newCycle).err = s.err := rfl
@[simp] theorem State.newCycle_buf (s : State) : (s.newCycle).buf = s.buf := rfl

/-! ### `State.forgetSession`: what `CLOSE` forgets (43_session.md R97) -/

@[simp] theorem State.forgetSession_params (s : State) : (s.forgetSession).params = s.params := rfl
@[simp] theorem State.forgetSession_inputs (s : State) : (s.forgetSession).inputs = s.inputs := rfl
@[simp] theorem State.forgetSession_sess (s : State) : (s.forgetSession).sess = .closed := rfl
@[simp] theorem State.forgetSession_rawT (s : State) : (s.forgetSession).rawT = none := rfl
@[simp] theorem State.forgetSession_rawP (s : State) : (s.forgetSession).rawP = none := rfl
@[simp] theorem State.forgetSession_rawH (s : State) : (s.forgetSession).rawH = none := rfl
@[simp] theorem State.forgetSession_fine (s : State) : (s.forgetSession).fine = none := rfl
@[simp] theorem State.forgetSession_outT (s : State) : (s.forgetSession).outT = none := rfl
@[simp] theorem State.forgetSession_outP (s : State) : (s.forgetSession).outP = none := rfl
@[simp] theorem State.forgetSession_outH (s : State) : (s.forgetSession).outH = none := rfl
@[simp] theorem State.forgetSession_last (s : State) : (s.forgetSession).last = s.last := rfl
@[simp] theorem State.forgetSession_err (s : State) : (s.forgetSession).err = s.err := rfl
@[simp] theorem State.forgetSession_buf (s : State) : (s.forgetSession).buf = dropBytes s.buf 0 s.params.bufSize := rfl

/-! ### `State.applyReset`: what `RESET` leaves (10_state.md R24) -/

@[simp] theorem State.applyReset_params (s : State) : (s.applyReset).params = s.params := rfl
@[simp] theorem State.applyReset_inputs (s : State) : (s.applyReset).inputs = s.inputs := rfl
@[simp] theorem State.applyReset_sess (s : State) : (s.applyReset).sess = .closed := rfl
@[simp] theorem State.applyReset_rawT (s : State) : (s.applyReset).rawT = none := rfl
@[simp] theorem State.applyReset_rawP (s : State) : (s.applyReset).rawP = none := rfl
@[simp] theorem State.applyReset_rawH (s : State) : (s.applyReset).rawH = none := rfl
@[simp] theorem State.applyReset_fine (s : State) : (s.applyReset).fine = none := rfl
@[simp] theorem State.applyReset_outT (s : State) : (s.applyReset).outT = none := rfl
@[simp] theorem State.applyReset_outP (s : State) : (s.applyReset).outP = none := rfl
@[simp] theorem State.applyReset_outH (s : State) : (s.applyReset).outH = none := rfl
@[simp] theorem State.applyReset_last (s : State) : (s.applyReset).last = .ok := rfl
@[simp] theorem State.applyReset_err (s : State) : (s.applyReset).err = false := rfl
@[simp] theorem State.applyReset_buf (s : State) : (s.applyReset).buf = [] := rfl

/-! ### `State.dropInput`: taking an input changes only the list of inputs -/

@[simp] theorem State.dropInput_params (s : State) : (s.dropInput).params = s.params := rfl
@[simp] theorem State.dropInput_inputs (s : State) : (s.dropInput).inputs = s.inputs.tail := rfl
@[simp] theorem State.dropInput_sess (s : State) : (s.dropInput).sess = s.sess := rfl
@[simp] theorem State.dropInput_rawT (s : State) : (s.dropInput).rawT = s.rawT := rfl
@[simp] theorem State.dropInput_rawP (s : State) : (s.dropInput).rawP = s.rawP := rfl
@[simp] theorem State.dropInput_rawH (s : State) : (s.dropInput).rawH = s.rawH := rfl
@[simp] theorem State.dropInput_fine (s : State) : (s.dropInput).fine = s.fine := rfl
@[simp] theorem State.dropInput_outT (s : State) : (s.dropInput).outT = s.outT := rfl
@[simp] theorem State.dropInput_outP (s : State) : (s.dropInput).outP = s.outP := rfl
@[simp] theorem State.dropInput_outH (s : State) : (s.dropInput).outH = s.outH := rfl
@[simp] theorem State.dropInput_last (s : State) : (s.dropInput).last = s.last := rfl
@[simp] theorem State.dropInput_err (s : State) : (s.dropInput).err = s.err := rfl
@[simp] theorem State.dropInput_buf (s : State) : (s.dropInput).buf = s.buf := rfl

/-! ### `State.present`: presenting a command changes only the list of inputs -/

@[simp] theorem State.present_params (s : State) (w : Word) : (s.present w).params = s.params := rfl
@[simp] theorem State.present_inputs (s : State) (w : Word) : (s.present w).inputs = .command w :: s.inputs := rfl
@[simp] theorem State.present_sess (s : State) (w : Word) : (s.present w).sess = s.sess := rfl
@[simp] theorem State.present_rawT (s : State) (w : Word) : (s.present w).rawT = s.rawT := rfl
@[simp] theorem State.present_rawP (s : State) (w : Word) : (s.present w).rawP = s.rawP := rfl
@[simp] theorem State.present_rawH (s : State) (w : Word) : (s.present w).rawH = s.rawH := rfl
@[simp] theorem State.present_fine (s : State) (w : Word) : (s.present w).fine = s.fine := rfl
@[simp] theorem State.present_outT (s : State) (w : Word) : (s.present w).outT = s.outT := rfl
@[simp] theorem State.present_outP (s : State) (w : Word) : (s.present w).outP = s.outP := rfl
@[simp] theorem State.present_outH (s : State) (w : Word) : (s.present w).outH = s.outH := rfl
@[simp] theorem State.present_last (s : State) (w : Word) : (s.present w).last = s.last := rfl
@[simp] theorem State.present_err (s : State) (w : Word) : (s.present w).err = s.err := rfl
@[simp] theorem State.present_buf (s : State) (w : Word) : (s.present w).buf = s.buf := rfl

end Sys2Proof.Machine
end

