-- ==== Sys2Proof/Laws/Ops.lean ====
section
/-!
SUPPORT. What the shared operations can do, one lemma each, and the laws of the buffer.
-/
namespace Sys2Proof.Machine

/-! ### The buffer: reading after writing and after invalidating -/

@[simp] theorem byteAt_putByte_same (m : List Host.Cell) (a : Nat) (v : Byte) :
    byteAt (putByte m a v) a = some v := by
  induction m with
  | nil => simp [putByte, byteAt]
  | cons c m ih =>
    simp only [putByte]
    split
    · simp [byteAt]
    · split
      · simp [byteAt]
      · rename_i h
        simp [byteAt, ih, Ne.symm h]

theorem byteAt_putByte_ne (m : List Host.Cell) {a b : Nat} (v : Byte) (h : b ≠ a) :
    byteAt (putByte m a v) b = byteAt m b := by
  induction m with
  | nil => simp [putByte, byteAt, h.symm]
  | cons c m ih =>
    simp only [putByte]
    split
    · simp [byteAt, h.symm]
    · split
      · rename_i hc
        subst hc
        simp [byteAt, h.symm]
      · simp only [byteAt, ih]

theorem byteAt_dropBytes (m : List Host.Cell) (a n b : Nat) :
    byteAt (dropBytes m a n) b = if a ≤ b ∧ b < a + n then none else byteAt m b := by
  induction m with
  | nil => simp [dropBytes, byteAt]
  | cons c m ih =>
    by_cases hc : a ≤ c.1 ∧ c.1 < a + n
    · have hd : dropBytes (c :: m) a n = dropBytes m a n := by simp [dropBytes, hc]
      rw [hd, ih]
      by_cases hb : c.1 = b
      · rw [if_pos (hb ▸ hc), if_pos (hb ▸ hc)]
      · simp [byteAt, hb]
    · have hd : dropBytes (c :: m) a n = c :: dropBytes m a n := by
        simp only [dropBytes, List.filter_cons]
        rw [if_pos (by simp; omega)]
      rw [hd]
      by_cases hb : c.1 = b
      · rw [if_neg (hb ▸ hc)]
        simp [byteAt, hb]
      · simp only [byteAt, if_neg hb, ih]

theorem byteAt_eq_none_of_lt {m : List Host.Cell} {a n : Nat} (h : ∀ c ∈ m, c.1 < n) (ha : n ≤ a) :
    byteAt m a = none := by
  induction m with
  | nil => rfl
  | cons c m ih =>
    have hc := h c (by simp)
    have hne : c.1 ≠ a := by omega
    simp only [byteAt, hne, if_false]
    exact ih (fun d hd => h d (by simp [hd]))

/-! ### The buffer: the canonical form is kept by every operation -/

theorem mem_putByte {m : List Host.Cell} {a : Nat} {v : Byte} {c : Host.Cell} (h : c ∈ putByte m a v) :
    c = (a, v) ∨ c ∈ m := by
  induction m with
  | nil => simpa [putByte] using h
  | cons d m ih =>
    simp only [putByte] at h
    split at h
    · simpa using h
    · split at h
      · rcases List.mem_cons.mp h with h | h
        · exact .inl h
        · exact .inr (by simp [h])
      · rcases List.mem_cons.mp h with h | h
        · exact .inr (by simp [h])
        · rcases ih h with h | h
          · exact .inl h
          · exact .inr (by simp [h])

theorem Memory.wf_putByte {m : List Host.Cell} (h : Memory.wf m) (a : Nat) (v : Byte) : Memory.wf (putByte m a v) := by
  induction m with
  | nil => simp [putByte]
  | cons c m ih =>
    have hm := List.pairwise_cons.mp h
    simp only [putByte]
    split
    · rename_i hlt
      refine List.pairwise_cons.mpr ⟨fun d hd => ?_, h⟩
      rcases List.mem_cons.mp hd with rfl | hd
      · exact hlt
      · exact Nat.lt_trans hlt (hm.1 d hd)
    · split
      · rename_i heq
        refine List.pairwise_cons.mpr ⟨fun d hd => ?_, hm.2⟩
        have := hm.1 d hd
        simp only
        omega
      · refine List.pairwise_cons.mpr ⟨fun d hd => ?_, ih hm.2⟩
        rcases mem_putByte hd with rfl | hd
        · simp only
          omega
        · exact hm.1 d hd

theorem Memory.wf_dropBytes {m : List Host.Cell} (h : Memory.wf m) (a n : Nat) : Memory.wf (dropBytes m a n) :=
  h.sublist List.filter_sublist

theorem mem_dropBytes {m : List Host.Cell} {a n : Nat} {c : Host.Cell} :
    c ∈ dropBytes m a n ↔ c ∈ m ∧ ¬ (a ≤ c.1 ∧ c.1 < a + n) := by
  simp only [dropBytes, List.mem_filter, Bool.not_eq_true', Bool.and_eq_false_iff, decide_eq_false_iff_not]
  exact and_congr_right fun _ => not_and_or.symm

/-- Invalidating the whole buffer leaves no byte, when no byte stands outside it. -/
theorem dropBytes_all {m : List Host.Cell} {n : Nat} (h : ∀ c ∈ m, c.1 < n) : dropBytes m 0 n = [] := by
  refine List.eq_nil_iff_forall_not_mem.mpr fun c hc => ?_
  obtain ⟨hm, hn⟩ := mem_dropBytes.mp hc
  have := h c hm
  omega

theorem Memory.wf_reset : Memory.wf State.reset.buf := List.Pairwise.nil

/-- Two buffers in canonical form that read the same everywhere are equal data. -/
theorem buf_ext {m k : List Host.Cell} (hm : Memory.wf m) (hk : Memory.wf k) (h : ∀ a, byteAt m a = byteAt k a) : m = k := by
  have below {l : List Host.Cell} {c : Host.Cell} (hl : Memory.wf (c :: l)) : byteAt l c.1 = none := by
    have h1 := (List.pairwise_cons.mp hl).1
    clear hl h
    induction l with
    | nil => rfl
    | cons d l ih =>
      have hd := h1 d (by simp)
      have hne : d.1 ≠ c.1 := by omega
      simp only [byteAt, hne, if_false]
      exact ih (fun e he => h1 e (by simp [he]))
  have small {l : List Host.Cell} {c : Host.Cell} {b : Nat} (hl : Memory.wf (c :: l)) (hb : b < c.1) :
      byteAt (c :: l) b = none := by
    have h1 := (List.pairwise_cons.mp hl).1
    have hne : c.1 ≠ b := by omega
    simp only [byteAt, hne, if_false]
    clear hl h hne
    induction l with
    | nil => rfl
    | cons d l ih =>
      have hd := h1 d (by simp)
      have hne : d.1 ≠ b := by omega
      simp only [byteAt, hne, if_false]
      exact ih (fun e he => h1 e (by simp [he]))
  induction m generalizing k with
  | nil =>
    cases k with
    | nil => rfl
    | cons d k => simpa [byteAt] using h d.1
  | cons c m ih =>
    cases k with
    | nil => simpa [byteAt] using h c.1
    | cons d k =>
      have hcd : c.1 = d.1 := by
        rcases Nat.lt_trichotomy c.1 d.1 with hlt | heq | hgt
        · have := h c.1
          rw [small hk hlt] at this
          simp [byteAt] at this
        · exact heq
        · have := h d.1
          rw [small hm hgt] at this
          simp [byteAt] at this
      have hv : c.2 = d.2 := by simpa [byteAt, hcd] using h c.1
      have hcell : c = d := Prod.ext hcd hv
      subst hcell
      refine congrArg (c :: ·) (ih (List.pairwise_cons.mp hm).2 (List.pairwise_cons.mp hk).2 fun a => ?_)
      by_cases ha : c.1 = a
      · subst ha
        rw [below hm, below hk]
      · simpa [byteAt, ha] using h a

/-! ### Reading several bytes -/

theorem bytesAt_length {m : List Host.Cell} {a n : Nat} {b : List Byte} (h : bytesAt m a n = some b) :
    b.length = n := by
  induction n generalizing a b with
  | zero => simp [bytesAt] at h; simp [← h]
  | succ n ih =>
    simp only [bytesAt, Option.bind_eq_bind, Option.bind_eq_some_iff, Option.pure_def, Option.some.injEq] at h
    obtain ⟨x, -, bs, hbs, rfl⟩ := h
    simp [ih hbs]

/-- What `bytesAt` reads: byte `i` of the answer is the buffer's byte at `a + i`. -/
theorem bytesAt_byte {m : List Host.Cell} {a n : Nat} {b : List Byte} (h : bytesAt m a n = some b) {i : Nat}
    (hi : i < n) : byteAt m (a + i) = some (nthByte b i) := by
  induction n generalizing a b i with
  | zero => omega
  | succ n ih =>
    simp only [bytesAt, Option.bind_eq_bind, Option.bind_eq_some_iff, Option.pure_def, Option.some.injEq] at h
    obtain ⟨x, hx, bs, hbs, rfl⟩ := h
    cases i with
    | zero => simpa [nthByte] using hx
    | succ i =>
      have := ih hbs (i := i) (by omega)
      rw [show a + (i + 1) = a + 1 + i by omega, this]
      simp [nthByte]

/-- When every byte holds a value, `bytesAt` answers the list of them. -/
theorem bytesAt_isSome {m : List Host.Cell} {a n : Nat} (h : ∀ i < n, (byteAt m (a + i)).isSome = true) :
    ∃ b, bytesAt m a n = some b := by
  induction n generalizing a with
  | zero => exact ⟨[], rfl⟩
  | succ n ih =>
    obtain ⟨x, hx⟩ := Option.isSome_iff_exists.mp (h 0 (by omega))
    obtain ⟨bs, hbs⟩ := ih (a := a + 1) fun i hi => by
      rw [show a + 1 + i = a + (i + 1) by omega]
      exact h (i + 1) (by omega)
    exact ⟨x :: bs, by simp [bytesAt, hbs, show byteAt m a = some x by simpa using hx]⟩

theorem bytesAt_eq_none {m : List Host.Cell} {a n i : Nat} (hi : i < n) (h : byteAt m (a + i) = none) :
    bytesAt m a n = none := by
  cases hb : bytesAt m a n with
  | none => rfl
  | some b =>
    rw [bytesAt_byte hb hi] at h
    exact absurd h (by simp)

/-! ### The access primitives -/

theorem memRead_range {s : State} {a n : Nat} (h : s.params.bufSize < a + n) : s.memRead a n = .error .range := by
  simp [State.memRead, h]

theorem memRead_stale {s : State} {a n i : Nat} (h : a + n ≤ s.params.bufSize) (hi : i < n) (hb : s.bv (a + i) = false) :
    s.memRead a n = .error .stale := by
  have hnone : byteAt s.buf (a + i) = none := by simpa [State.bv] using hb
  simp [State.memRead, Nat.not_lt.mpr h, bytesAt_eq_none hi hnone]

theorem memRead_ok {s : State} {a n : Nat} (h : a + n ≤ s.params.bufSize) (hb : ∀ i < n, s.bv (a + i) = true) :
    ∃ b, s.memRead a n = .ok b ∧ b.length = n ∧ ∀ i < n, byteAt s.buf (a + i) = some (nthByte b i) := by
  obtain ⟨b, hb'⟩ := bytesAt_isSome (m := s.buf) (a := a) (n := n) hb
  exact ⟨b, by simp [State.memRead, Nat.not_lt.mpr h, hb'], bytesAt_length hb', fun i hi => bytesAt_byte hb' hi⟩

/-- Everything `MemRead` can answer. -/
theorem memRead_cases (s : State) (a n : Nat) :
    (s.params.bufSize < a + n ∧ s.memRead a n = .error .range) ∨
    (a + n ≤ s.params.bufSize ∧ (∃ i < n, s.bv (a + i) = false) ∧ s.memRead a n = .error .stale) ∨
    (a + n ≤ s.params.bufSize ∧ ∃ b, s.memRead a n = .ok b ∧ b.length = n ∧
      ∀ i < n, byteAt s.buf (a + i) = some (nthByte b i)) := by
  rcases Nat.lt_or_ge s.params.bufSize (a + n) with h | h
  · exact .inl ⟨h, memRead_range h⟩
  · by_cases hb : ∀ i < n, s.bv (a + i) = true
    · exact .inr (.inr ⟨h, memRead_ok h hb⟩)
    · push Not at hb
      obtain ⟨i, hi, hb⟩ := hb
      have hb' : s.bv (a + i) = false := by simpa using hb
      exact .inr (.inl ⟨h, ⟨i, hi, hb'⟩, memRead_stale h hi hb'⟩)

theorem memWrite_range {s : State} {a : Nat} (v : Byte) (h : s.params.bufSize < a + 1) :
    s.memWrite a v = .error .range := by
  simp [State.memWrite, h]

theorem memWrite_ok {s : State} {a : Nat} (v : Byte) (h : a + 1 ≤ s.params.bufSize) :
    s.memWrite a v = .ok { s with buf := putByte s.buf a v } := by
  simp [State.memWrite, Nat.not_lt.mpr h]

/-! ### How a command ends -/

@[simp] theorem finish_error (s : State) (e : StatusCode) : s.finish (.error e) = .next (s.raise e) := rfl

@[simp] theorem finish_ok (s t : State) : s.finish (.ok t) = .next t.complete := rfl

/-- Everything the end of a command can do: its fault raised on the state it began in, or its success completed. -/
theorem finish_cases {s t : State} {r : Except StatusCode State} (h : s.finish r = .next t) :
    (∃ e, r = .error e ∧ t = s.raise e) ∨ (∃ u, r = .ok u ∧ t = u.complete) := by
  cases r with
  | error e => exact .inl ⟨e, rfl, by simpa using h.symm⟩
  | ok u => exact .inr ⟨u, rfl, by simpa using h.symm⟩

theorem finish_next (s : State) (r : Except StatusCode State) : ∃ t, s.finish r = .next t := by
  cases r <;> exact ⟨_, rfl⟩

/-! ### Guards -/

theorem requireSession_cases (s : State) :
    (s.sess = .closed ∧ s.requireSession = .error .notReady) ∨
    (s.sess ≠ .closed ∧ s.requireSession = .ok ()) := by
  cases h : s.sess <;> simp [State.requireSession, h]

theorem requireReady_cases (s : State) :
    ((∀ c, s.sess ≠ .ready c) ∧ s.requireReady = .error .notReady) ∨
    (∃ c, s.sess = .ready c ∧ s.requireReady = .ok c) := by
  cases h : s.sess <;> simp [State.requireReady, h]

theorem requireConfiguring_cases (s : State) :
    (s.sess = .closed ∧ s.requireConfiguring = .error .notReady) ∨
    (s.sess = .configuring ∧ s.requireConfiguring = .ok ()) ∨
    ((∃ c, s.sess = .ready c) ∧ s.requireConfiguring = .error .locked) := by
  cases h : s.sess <;> simp [State.requireConfiguring, h]

theorem requireClosed_cases (s : State) :
    (s.sess = .closed ∧ s.requireClosed = .ok ()) ∨
    (s.sess ≠ .closed ∧ s.requireClosed = .error .opened) := by
  cases h : s.sess <;> simp [State.requireClosed, h]

theorem requireFeature_cases (has : Bool) :
    (has = false ∧ requireFeature has = .error .unimpl) ∨ (has = true ∧ requireFeature has = .ok ()) := by
  cases has <;> simp [requireFeature]

theorem requireSample_cases (raw : Option (BitVec 20)) :
    (raw = none ∧ requireSample raw = .error .noSample) ∨ (∃ r, raw = some r ∧ requireSample raw = .ok r) := by
  cases raw <;> simp [requireSample]

theorem requireFine_cases (s : State) :
    (s.fine = none ∧ s.requireFine = .error .noFine) ∨ (∃ f, s.fine = some f ∧ s.requireFine = .ok f) := by
  cases h : s.fine <;> simp [State.requireFine, h]

end Sys2Proof.Machine
end

