-- ==== Sys2Proof/Laws/Exec.lean ====
section
/-!
SUPPORT. What one command and one step can do, said once: `exec_cases` and `step_cases`.
-/
namespace Sys2Proof.Machine

/-- The success of command `i` begun in `s` and ended in `t`: what it asks of `s`, and `t` before `done`. -/
def Succeeds (i : Instr) (s t : State) : Prop :=
  match i with
  | .nop => t = s.complete
  | .openSession => s.sess = .closed ∧ t = State.complete { s with sess := .configuring }
  | .closeSession => t = s.forgetSession.complete
  | .rxb off imm8 => s.sess ≠ .closed ∧ off.toNat + 1 ≤ s.params.bufSize ∧
      t = State.complete { s with buf := putByte s.buf off.toNat imm8 }
  | .rxclr => s.sess ≠ .closed ∧ t = (s.memInvalidate 0 s.params.bufSize).complete
  | .ldcal off => s.sess = .configuring ∧ off.toNat + s.params.calLen ≤ s.params.bufSize ∧
      ∃ b : List Byte, b.length = s.params.calLen ∧
        (∀ k < s.params.calLen, byteAt s.buf (off.toNat + k) = some (nthByte b k)) ∧
        t = State.complete { s.memInvalidate off.toNat s.params.calLen with sess := .ready (decodeTable b) }
  | .asmT off => (∃ c, s.sess = .ready c) ∧ off.toNat + 3 ≤ s.params.bufSize ∧
      ∃ b : List Byte, (∀ k < 3, byteAt s.buf (off.toNat + k) = some (nthByte b k)) ∧
        t = State.complete { (s.memInvalidate off.toNat 3).newCycle with
          rawT := some (raw20 (nthByte b 0) (nthByte b 1) (nthByte b 2)) }
  | .asmP off => (∃ c, s.sess = .ready c) ∧ off.toNat + 3 ≤ s.params.bufSize ∧
      ∃ b : List Byte, (∀ k < 3, byteAt s.buf (off.toNat + k) = some (nthByte b k)) ∧
        t = State.complete { s.memInvalidate off.toNat 3 with
          rawP := some (raw20 (nthByte b 0) (nthByte b 1) (nthByte b 2)) }
  | .asmH off => (∃ c, s.sess = .ready c) ∧ off.toNat + 3 ≤ s.params.bufSize ∧
      ∃ b : List Byte, (∀ k < 3, byteAt s.buf (off.toNat + k) = some (nthByte b k)) ∧
        t = State.complete { s.memInvalidate off.toNat 3 with
          rawH := some (raw20 (nthByte b 0) (nthByte b 1) (nthByte b 2)) }
  | .compT => ∃ c raw, s.sess = .ready c ∧ s.rawT = some raw ∧
      t = State.complete { s with fine := some (compFine raw c), outT := some (compOut raw c) }
  | .compP => ∃ c raw f, s.sess = .ready c ∧ s.params.hasP = true ∧ s.rawP = some raw ∧ s.fine = some f ∧
      t = State.complete { s with outP := some (Config.compP raw c.coefx f) }
  | .compH => ∃ c raw f, s.sess = .ready c ∧ s.params.hasH = true ∧ s.rawH = some raw ∧ s.fine = some f ∧
      t = State.complete { s with outH := some (Config.compH raw c.coefx f) }

theorem assemble_cases (s : State) (off : Byte) :
    (∃ e, e ≠ .ok ∧ s.assemble off = .error e) ∨
    ((∃ c, s.sess = .ready c) ∧ off.toNat + 3 ≤ s.params.bufSize ∧
      ∃ b : List Byte, (∀ k < 3, byteAt s.buf (off.toNat + k) = some (nthByte b k)) ∧
        s.assemble off = .ok (raw20 (nthByte b 0) (nthByte b 1) (nthByte b 2), s.memInvalidate off.toNat 3)) := by
  rcases requireReady_cases s with ⟨-, h⟩ | ⟨c, hc, h⟩
  · exact .inl ⟨.notReady, by simp, by simp [State.assemble, h, bind, Except.bind]⟩
  · rcases memRead_cases s (offset off) 3 with ⟨-, hm⟩ | ⟨-, -, hm⟩ | ⟨hr, b, hm, -, hb⟩
    · exact .inl ⟨.range, by simp, by simp [State.assemble, h, hm, bind, Except.bind]⟩
    · exact .inl ⟨.stale, by simp, by simp [State.assemble, h, hm, bind, Except.bind]⟩
    · exact .inr ⟨⟨c, hc⟩, hr, b, hb, by
        simp only [State.assemble, h, hm, bind, Except.bind, pure, Except.pure]
        rfl⟩

/-- Everything a command can do: raise a fault on the state it began in, or succeed. -/
theorem exec_cases {i : Instr} {s t : State} (h : exec i s = .next t) :
    (∃ e, e ≠ .ok ∧ t = s.raise e) ∨ Succeeds i s t := by
  have fault {e : StatusCode} (he : e ≠ .ok) (ht : s.raise e = t) : (∃ e, e ≠ .ok ∧ t = s.raise e) ∨ Succeeds i s t :=
    .inl ⟨e, he, ht.symm⟩
  cases i with
  | nop =>
    simp only [exec, execNop, finish_ok, Host.Outcome.next.injEq] at h
    exact .inr h.symm
  | closeSession =>
    simp only [exec, execClose, finish_ok, Host.Outcome.next.injEq] at h
    exact .inr h.symm
  | openSession =>
    rcases requireClosed_cases s with ⟨hc, hg⟩ | ⟨-, hg⟩ <;>
      simp [exec, execOpen, hg, bind, Except.bind, pure, Except.pure] at h
    · exact .inr ⟨hc, h.symm⟩
    · exact fault (by simp) h
  | rxb off imm8 =>
    rcases requireSession_cases s with ⟨-, hg⟩ | ⟨hc, hg⟩ <;>
      simp [exec, execRxb, hg, bind, Except.bind] at h
    · exact fault (by simp) h
    · rcases Nat.lt_or_ge s.params.bufSize (offset off + 1) with hl | hl
      · rw [memWrite_range imm8 hl, finish_error, Host.Outcome.next.injEq] at h
        exact fault (by simp) h
      · rw [memWrite_ok imm8 hl, finish_ok, Host.Outcome.next.injEq] at h
        exact .inr ⟨hc, hl, h.symm⟩
  | rxclr =>
    rcases requireSession_cases s with ⟨-, hg⟩ | ⟨hc, hg⟩ <;>
      simp [exec, execRxclr, hg, bind, Except.bind, pure, Except.pure] at h
    · exact fault (by simp) h
    · exact .inr ⟨hc, h.symm⟩
  | ldcal off =>
    rcases requireConfiguring_cases s with ⟨-, hg⟩ | ⟨hc, hg⟩ | ⟨-, hg⟩ <;>
      simp [exec, execLdcal, hg, bind, Except.bind, pure, Except.pure] at h
    · exact fault (by simp) h
    · rcases memRead_cases s (offset off) s.params.calLen with ⟨-, hm⟩ | ⟨-, -, hm⟩ | ⟨hr, b, hm, hl, hb⟩ <;>
        simp [hm] at h
      · exact fault (by simp) h
      · exact fault (by simp) h
      · exact .inr ⟨hc, hr, b, hl, hb, h.symm⟩
    · exact fault (by simp) h
  | asmT off =>
    rcases assemble_cases s off with ⟨e, he, ha⟩ | ⟨hc, hr, b, hb, ha⟩ <;>
      simp [exec, execAsmT, ha, bind, Except.bind, pure, Except.pure] at h
    · exact fault he h
    · exact .inr ⟨hc, hr, b, hb, h.symm⟩
  | asmP off =>
    rcases assemble_cases s off with ⟨e, he, ha⟩ | ⟨hc, hr, b, hb, ha⟩ <;>
      simp [exec, execAsmP, ha, bind, Except.bind, pure, Except.pure] at h
    · exact fault he h
    · exact .inr ⟨hc, hr, b, hb, h.symm⟩
  | asmH off =>
    rcases assemble_cases s off with ⟨e, he, ha⟩ | ⟨hc, hr, b, hb, ha⟩ <;>
      simp [exec, execAsmH, ha, bind, Except.bind, pure, Except.pure] at h
    · exact fault he h
    · exact .inr ⟨hc, hr, b, hb, h.symm⟩
  | compT =>
    rcases requireReady_cases s with ⟨-, hg⟩ | ⟨c, hc, hg⟩ <;>
      simp [exec, execCompT, hg, bind, Except.bind, pure, Except.pure] at h
    · exact fault (by simp) h
    · rcases requireSample_cases s.rawT with ⟨-, hr⟩ | ⟨raw, hraw, hr⟩ <;> simp [hr] at h
      · exact fault (by simp) h
      · exact .inr ⟨c, raw, hc, hraw, h.symm⟩
  | compP =>
    rcases requireReady_cases s with ⟨-, hg⟩ | ⟨c, hc, hg⟩ <;>
      simp [exec, execCompP, hg, bind, Except.bind, pure, Except.pure] at h
    · exact fault (by simp) h
    · rcases requireFeature_cases s.params.hasP with ⟨-, hf⟩ | ⟨hp, hf⟩ <;> simp [hf] at h
      · exact fault (by simp) h
      · rcases requireSample_cases s.rawP with ⟨-, hr⟩ | ⟨raw, hraw, hr⟩ <;> simp [hr] at h
        · exact fault (by simp) h
        · rcases requireFine_cases s with ⟨-, hn⟩ | ⟨f, hfine, hn⟩ <;> simp [hn] at h
          · exact fault (by simp) h
          · exact .inr ⟨c, raw, f, hc, hp, hraw, hfine, h.symm⟩
  | compH =>
    rcases requireReady_cases s with ⟨-, hg⟩ | ⟨c, hc, hg⟩ <;>
      simp [exec, execCompH, hg, bind, Except.bind, pure, Except.pure] at h
    · exact fault (by simp) h
    · rcases requireFeature_cases s.params.hasH with ⟨-, hf⟩ | ⟨hp, hf⟩ <;> simp [hf] at h
      · exact fault (by simp) h
      · rcases requireSample_cases s.rawH with ⟨-, hr⟩ | ⟨raw, hraw, hr⟩ <;> simp [hr] at h
        · exact fault (by simp) h
        · rcases requireFine_cases s with ⟨-, hn⟩ | ⟨f, hfine, hn⟩ <;> simp [hn] at h
          · exact fault (by simp) h
          · exact .inr ⟨c, raw, f, hc, hp, hraw, hfine, h.symm⟩

/-! ### Steps -/

theorem step_idle {s : State} (h : s.inputs = []) : step s = .next s := by
  simp [step, h]

theorem step_reset {s : State} {rest : List HostInput} (h : s.inputs = .reset :: rest) :
    step s = .next (State.applyReset { s with inputs := rest }) := by
  simp [step, h, State.dropInput]

theorem step_illegal {s : State} {w : Word} {rest : List HostInput} {k : IllegalWord}
    (h : s.inputs = .command w :: rest) (hd : decode w = .error k) :
    step s = .next (State.raise { s with inputs := rest } .illegal) := by
  simp [step, h, hd, State.dropInput, execIllegal]

theorem step_command {s : State} {w : Word} {rest : List HostInput} {i : Instr}
    (h : s.inputs = .command w :: rest) (hd : decode w = .ok i) : step s = exec i { s with inputs := rest } := by
  simp [step, h, hd, State.dropInput]

/-- Everything a step can do: wait, reset, refuse an illegal word or run a command. -/
theorem step_cases {s t : State} (h : step s = .next t) :
    (s.inputs = [] ∧ t = s) ∨
    (∃ rest, s.inputs = .reset :: rest ∧ t = State.applyReset { s with inputs := rest }) ∨
    (∃ w rest k, s.inputs = .command w :: rest ∧ decode w = .error k ∧
      t = State.raise { s with inputs := rest } .illegal) ∨
    (∃ w rest i, s.inputs = .command w :: rest ∧ decode w = .ok i ∧ exec i { s with inputs := rest } = .next t) := by
  rcases hi : s.inputs with _ | ⟨x, rest⟩
  · rw [step_idle hi, Host.Outcome.next.injEq] at h
    exact .inl ⟨rfl, h.symm⟩
  · cases x with
    | reset =>
      rw [step_reset hi, Host.Outcome.next.injEq] at h
      exact .inr (.inl ⟨rest, rfl, h.symm⟩)
    | command w =>
      rcases hd : decode w with k | i
      · rw [step_illegal hi hd, Host.Outcome.next.injEq] at h
        exact .inr (.inr (.inl ⟨w, rest, k, rfl, hd, h.symm⟩))
      · rw [step_command hi hd] at h
        exact .inr (.inr (.inr ⟨w, rest, i, rfl, hd, h⟩))

end Sys2Proof.Machine
end

