-- ==== Sys2Proof/Laws/PerInstr.lean ====
section
/-!
SUPPORT. Statements made per command, one lemma per constructor of `Instr`.
-/
namespace Sys2Proof.Laws

/-- The word of `i` meets a row of the opcode map that rebuilds `i` from the word's operand fields (30_encoding.md
R49, R54). -/
def MeetsItsRow.Statement (i : Instr) : Prop :=
  ∃ r ∈ opcodeMap, encode i &&& r.mask = r.pattern ∧
    withOperands r.command (offField (encode i)) (immField (encode i)) = i

theorem MeetsItsRow.nop : MeetsItsRow.Statement .nop :=
  ⟨⟨0x10000000, 0xFFFFFFFF, .nop⟩, by decide⟩

theorem MeetsItsRow.openSession : MeetsItsRow.Statement .openSession :=
  ⟨⟨0x20000000, 0xFFFFFFFF, .openSession⟩, by decide⟩

theorem MeetsItsRow.closeSession : MeetsItsRow.Statement .closeSession :=
  ⟨⟨0x30000000, 0xFFFFFFFF, .closeSession⟩, by decide⟩

theorem MeetsItsRow.rxb (off imm8 : Byte) : MeetsItsRow.Statement (.rxb off imm8) :=
  ⟨⟨0x40000000, 0xFFFF0000, .rxb 0 0⟩, by decide, by simp only [encode, packFields_and_byteMask]; decide,
    by simp [encode, withOperands]⟩

theorem MeetsItsRow.rxclr : MeetsItsRow.Statement .rxclr :=
  ⟨⟨0x50000000, 0xFFFFFFFF, .rxclr⟩, by decide⟩

theorem MeetsItsRow.ldcal (off : Byte) : MeetsItsRow.Statement (.ldcal off) :=
  ⟨⟨0x60000000, 0xFFFF00FF, .ldcal 0⟩, by decide, by simp only [encode, packFields_and_offMask]; decide,
    by simp [encode, withOperands]⟩

theorem MeetsItsRow.asmT (off : Byte) : MeetsItsRow.Statement (.asmT off) :=
  ⟨⟨0x70000000, 0xFFFF00FF, .asmT 0⟩, by decide, by simp only [encode, packFields_and_offMask]; decide,
    by simp [encode, withOperands]⟩

theorem MeetsItsRow.asmP (off : Byte) : MeetsItsRow.Statement (.asmP off) :=
  ⟨⟨0x71000000, 0xFFFF00FF, .asmP 0⟩, by decide, by simp only [encode, packFields_and_offMask]; decide,
    by simp [encode, withOperands]⟩

theorem MeetsItsRow.asmH (off : Byte) : MeetsItsRow.Statement (.asmH off) :=
  ⟨⟨0x72000000, 0xFFFF00FF, .asmH 0⟩, by decide, by simp only [encode, packFields_and_offMask]; decide,
    by simp [encode, withOperands]⟩

theorem MeetsItsRow.compT : MeetsItsRow.Statement .compT :=
  ⟨⟨0x80000000, 0xFFFFFFFF, .compT⟩, by decide⟩

theorem MeetsItsRow.compP : MeetsItsRow.Statement .compP :=
  ⟨⟨0x90000000, 0xFFFFFFFF, .compP⟩, by decide⟩

theorem MeetsItsRow.compH : MeetsItsRow.Statement .compH :=
  ⟨⟨0xA0000000, 0xFFFFFFFF, .compH⟩, by decide⟩

end Sys2Proof.Laws
end

