-- ==== Sys2Proof/Tests/Slice0.lean ====
section
/-!
SUPPORT. The tests of the model: well-formedness, decoding of words written out from the spec, one-step tests whose
expected results are the vectors of 95_test_vectors.md, and a witness for every statement that has hypotheses.
-/
namespace Sys2Proof.Tests

open Sys2Proof.Machine

/-! ### The states the tests start from -/

/-- The next state of an answer. -/
def nextOf : Answer → Option State
  | .next t => some t
  | .fault _ => none
  | .refused _ => none

/-- `STATUS` after a command. -/
def statusAfter (i : Instr) (s : State) : Option (BitVec 32) := (nextOf (exec i s)).map State.statusWord

/-- Bytes at rising offsets. -/
def cellsFrom (a : Nat) : List Byte → List Host.Cell
  | [] => []
  | b :: bs => (a, b) :: cellsFrom (a + 1) bs

/-- A CU with both optional quantities. -/
def fullParams : Params := { bufSize := 8, calLen := 8, hasP := true, hasH := true }

/-- The table of example A3. -/
def table : Coeffs := { t1 := 27504, t2 := 26435, t3 := 64536, coefx := [] }

/-- Closed, with `ERR` set. -/
def closedErr : State := { State.reset with err := true }

/-- Configuring, with the bytes of L9 at 2 to 7. -/
def configuring : State :=
  { State.reset with sess := .configuring, buf := cellsFrom 2 [0x70, 0x6B, 0x43, 0x67, 0x18, 0xFC] }

/-- Configuring, with an empty buffer. -/
def configuringEmpty : State := { State.reset with sess := .configuring }

/-- Ready, `STATUS = 0x00000002`. -/
def ready : State := { State.reset with sess := .ready table }

/-- Ready, with the bytes of S11 at 5 to 7. -/
def readyBytes : State := { ready with buf := cellsFrom 5 [0x7E, 0xED, 0x0F] }

/-- Ready, with the sample of T1, `STATUS = 0x00000006`. -/
def readySample : State := { ready with rawT := some 519888 }

/-- Ready after a finished cycle, `STATUS = 0x00000066`. -/
def readyCycle : State :=
  { readySample with fine := some 128422, outT := some 0x4039151D460F8000, buf := cellsFrom 5 [0x7E, 0xED, 0x0F] }

/-- Ready with pressure and humidity samples and a finished cycle. -/
def readyFull : State :=
  { readyCycle with
    params := fullParams, sess := .ready { table with coefx := [0xAA, 0x55] }, rawP := some 415148, rawH := some 1 }

/-- `readyFull` without the carry `FINE`. -/
def readyNoFine : State := { readyFull with fine := none, outT := none }

/-- `readyFull` without the pressure and humidity samples. -/
def readyNoSample : State := { readyFull with rawP := none, rawH := none }

/-! ### Well-formed source lines: each check refuses an ill-formed line (30_encoding.md R54, R55) -/

theorem test_wf_accepts : (AsmLine.rxb 255 255).wellFormed 6 = true ∧ (AsmLine.ldcal 255).wellFormed 6 = true ∧
    (AsmLine.asm .pressure 255).wellFormed 6 = true ∧ (AsmLine.loadcal [1, 2, 3, 4, 5, 6]).wellFormed 6 = true ∧
    (AsmLine.rxburst 254 [0, 255]).wellFormed 6 = true ∧ (AsmLine.measureT 255 0 255).wellFormed 6 = true := by decide

theorem test_wf_refuses_rxb_off : (AsmLine.rxb 256 0).wellFormed 6 = false := by decide
theorem test_wf_refuses_rxb_byte : (AsmLine.rxb 0 256).wellFormed 6 = false := by decide
theorem test_wf_refuses_ldcal_off : (AsmLine.ldcal 256).wellFormed 6 = false := by decide
theorem test_wf_refuses_asm_off : (AsmLine.asm .humidity 256).wellFormed 6 = false := by decide
theorem test_wf_refuses_rxburst_empty : (AsmLine.rxburst 0 []).wellFormed 6 = false := by decide
theorem test_wf_refuses_rxburst_byte : (AsmLine.rxburst 0 [1, 256]).wellFormed 6 = false := by decide
theorem test_wf_refuses_rxburst_off : (AsmLine.rxburst 255 [1, 2]).wellFormed 6 = false := by decide
theorem test_wf_refuses_loadcal_length : (AsmLine.loadcal [1, 2, 3, 4, 5]).wellFormed 6 = false := by decide
theorem test_wf_refuses_loadcal_empty : (AsmLine.loadcal []).wellFormed 0 = false := by decide
theorem test_wf_refuses_loadcal_byte : (AsmLine.loadcal [1, 2, 3, 4, 5, 256]).wellFormed 6 = false := by decide
theorem test_wf_refuses_loadcal_long :
    (AsmLine.loadcal (List.replicate 257 0)).wellFormed 257 = false := by
  rw [AsmLine.wellFormed, List.length_replicate]
  exact Bool.and_false _
theorem test_wf_refuses_sample_bytes : (AsmLine.sample .temperature 256 0 0).wellFormed 6 = false ∧
    (AsmLine.sample .temperature 0 256 0).wellFormed 6 = false ∧
    (AsmLine.sample .temperature 0 0 256).wellFormed 6 = false := by decide
theorem test_wf_refuses_measureT_bytes : (AsmLine.measureT 256 0 0).wellFormed 6 = false ∧
    (AsmLine.measureT 0 256 0).wellFormed 6 = false ∧ (AsmLine.measureT 0 0 256).wellFormed 6 = false := by decide

/-- Source text of program P2 of 95_test_vectors.md, section 3. -/
theorem test_parse_lines :
    parseLine "ASM.T 0              ; the third byte never came".toList = .ok (some (.asm .temperature 0)) ∧
    parseLine "MEASURE.T 0x7E, 0xED, 0x0F".toList = .ok (some (.measureT 0x7E 0xED 0x0F)) ∧
    parseLine "rxclr".toList = .error .unknownMnemonic := by decide

/-- Program P5 of 95_test_vectors.md, section 3, its last line. -/
theorem test_assemble_measureT : assembleLine 6 (.measureT 0x7E 0xED 0x00) =
    some [0x4000007E, 0x400001ED, 0x40000200, 0x70000000, 0x80000000] := by decide

/-! ### Decoding, from the fields of 30_encoding.md R46 and the rows of R49 (95_test_vectors.md E1 to E38) -/

theorem test_decode_nop : decode 0b0001_00_00_00000000_00000000_00000000 = .ok .nop := by decide
theorem test_decode_open : decode 0b0010_00_00_00000000_00000000_00000000 = .ok .openSession := by decide
theorem test_decode_close : decode 0b0011_00_00_00000000_00000000_00000000 = .ok .closeSession := by decide
theorem test_decode_rxb : decode 0b0100_00_00_00000000_00000001_00010000 = .ok (.rxb 1 0x10) := by decide
theorem test_decode_rxclr : decode 0b0101_00_00_00000000_00000000_00000000 = .ok .rxclr := by decide
theorem test_decode_ldcal : decode 0b0110_00_00_00000000_11111111_00000000 = .ok (.ldcal 255) := by decide
theorem test_decode_asmT : decode 0b0111_00_00_00000000_00000011_00000000 = .ok (.asmT 3) := by decide
theorem test_decode_asmP : decode 0b0111_00_01_00000000_00000101_00000000 = .ok (.asmP 5) := by decide
theorem test_decode_asmH : decode 0b0111_00_10_00000000_00000000_00000000 = .ok (.asmH 0) := by decide
theorem test_decode_compT : decode 0b1000_00_00_00000000_00000000_00000000 = .ok .compT := by decide
theorem test_decode_compP : decode 0b1001_00_00_00000000_00000000_00000000 = .ok .compP := by decide
theorem test_decode_compH : decode 0b1010_00_00_00000000_00000000_00000000 = .ok .compH := by decide

/-- E20 to E23. -/
theorem test_decode_illegal_op : decode 0x00000000 = .error .neverLegal ∧ decode 0xFFFFFFFF = .error .neverLegal ∧
    decode 0xB0000000 = .error .reservedOp ∧ decode 0xE0000000 = .error .reservedOp := by decide

/-- E24 to E30. -/
theorem test_decode_illegal_bits : decode 0x10000001 = .error .mustBeZero ∧
    decode 0x20000100 = .error .mustBeZero ∧ decode 0x80000001 = .error .mustBeZero ∧
    decode 0x81000000 = .error .mustBeZero ∧ decode 0x60000001 = .error .mustBeZero ∧
    decode 0x61000000 = .error .mustBeZero ∧ decode 0x41000000 = .error .mustBeZero := by decide

/-- E31 to E38. -/
theorem test_decode_illegal_bits_high : decode 0x40010000 = .error .mustBeZero ∧
    decode 0x44000000 = .error .mustBeZero ∧ decode 0x48000000 = .error .mustBeZero ∧
    decode 0x70000001 = .error .mustBeZero ∧ decode 0x70800000 = .error .mustBeZero ∧
    decode 0x74000000 = .error .mustBeZero ∧ decode 0x50000100 = .error .mustBeZero ∧
    decode 0x30FF0000 = .error .mustBeZero := by decide

/-- E33. -/
theorem test_decode_illegal_quantity : decode 0x73000000 = .error .reservedQuantity := by decide

theorem test_table_word : decodeTableWord 32 0x4000FFFF = some (.rxb 255 255) ∧ decodeTableWord 32 0 = none ∧
    decodeTableWord 40 0x0110000000 = none := by decide

/-! ### One step each (95_test_vectors.md, by vector) -/

/-- Section 2.7, `NOP` after a fault: `ERR` stays. -/
theorem test_nop : statusAfter .nop closedErr = some 0x00010000 := by decide

/-- Section 2.7, `OPEN` from Closed and from Ready. -/
theorem test_open : statusAfter .openSession State.reset = some 0x00000001 ∧
    statusAfter .openSession ready = some 0x00013002 := by decide

/-- Z4: `CLOSE` leaves the reset state. -/
theorem test_close : nextOf (exec .closeSession readyCycle) = some State.reset := by decide

/-- B2 and B3. -/
theorem test_rxb_range : (nextOf (exec (.rxb 7 0xFF) ready)).map State.buf = some [(7, 0xFF)] ∧
    statusAfter (.rxb 8 0x10) ready = some 0x00015002 := by decide

/-- B4: the last write wins. -/
theorem test_rxb_overwrites :
    (nextOf (exec (.rxb 0 0x55) { ready with buf := [(0, 0xAA)] })).map State.buf = some [(0, 0x55)] := by decide

/-- B9 and B11. -/
theorem test_rxclr : (nextOf (exec .rxclr readyCycle)).map State.buf = some [] ∧
    statusAfter .rxclr readyCycle = some 0x00000066 ∧ statusAfter .rxclr State.reset = some 0x00012000 := by decide

/-- L9: signed and unsigned coefficients, at the last legal offset. -/
theorem test_ldcal : ((nextOf (exec (.ldcal 2) configuring)).bind State.table).map (fun c =>
      (c.t1.toNat, c.t2.toInt, c.t3.toInt)) = some (27504, 26435, -1000) ∧
    (nextOf (exec (.ldcal 2) configuring)).map State.buf = some [] ∧
    statusAfter (.ldcal 2) configuring = some 0x00000002 := by decide

/-- L13: the opaque bytes; L10: one offset further. -/
theorem test_ldcal_coefx : ((nextOf (exec (.ldcal 0) { configuring with
      params := fullParams, buf := cellsFrom 0 [0x70, 0x6B, 0x43, 0x67, 0x18, 0xFC, 0xAA, 0x55] })).bind
        State.table).map Coeffs.coefx = some [0xAA, 0x55] ∧
    statusAfter (.ldcal 3) configuring = some 0x00015001 := by decide

/-- S11 with S24 and S21: the sample without its padding, a new cycle. -/
theorem test_asmT : (nextOf (exec (.asmT 5) readyCycle)).map (fun t => (t.rawT, t.fine, t.statusWord, t.buf)) =
    some (some 519888, none, 0x00000006, []) := by decide

/-- S26: a missing byte. -/
theorem test_asmT_stale : statusAfter (.asmT 0) { readyCycle with buf := cellsFrom 0 [0x7E, 0xED] } =
    some 0x00016066 := by decide

/-- S22: the cycle goes on. -/
theorem test_asmP : (nextOf (exec (.asmP 5) readyCycle)).map (fun t => (t.rawP, t.statusWord)) =
    some (some 519888, 0x0000006E) := by decide

/-- S23. -/
theorem test_asmH : (nextOf (exec (.asmH 5) readyCycle)).map (fun t => (t.rawH, t.statusWord)) =
    some (some 519888, 0x00000076) := by decide

/-- T28: both roundings occur, the second a tie that goes up to even. -/
theorem test_compT_rounds_twice : (nextOf (exec .compT { State.reset with
      sess := .ready { t1 := 0, t2 := 30674, t3 := 25707, coefx := [] }, rawT := some 992345 })).map
        (fun t => (t.fine.map BitVec.toInt, t.outT, t.statusWord)) =
    some (some 3331383, some 0x408455497F26BDE0, 0x00000066) := by decide

/-- T2: a negative sum is truncated toward zero. -/
theorem test_compT_truncates : (nextOf (exec .compT { ready with rawT := some 400000 })).map
      (fun t => (t.fine.map BitVec.toInt, t.outT)) = some (some (-64735), some 0xC0294986D2400000) := by decide

/-- Q6: the value is the parameter function's. -/
theorem test_compP : exec .compP readyFull =
    .next { readyFull with outP := some (Config.compP 415148 [0xAA, 0x55] 128422) } := rfl

/-- Q4 and Q5: the order of two causes. -/
theorem test_compP_faults :
    statusAfter .compP { ready with params := fullParams } = some 0x00017002 ∧
    statusAfter .compP { ready with params := fullParams, rawP := some 1 } = some 0x0001800A := by decide

/-- Q9: the value is the parameter function's. -/
theorem test_compH : exec .compH readyFull =
    .next { readyFull with outH := some (Config.compH 1 [0xAA, 0x55] 128422) } := rfl

/-- Q2. -/
theorem test_compH_unimpl : statusAfter .compH readyCycle = some 0x00019066 := by decide

/-- Section 2.7, last row, and Z2: the first step after reset. -/
theorem test_step_illegal : (nextOf (step (ready.withFetchWord 32 0x70000601))).map State.statusWord =
    some 0x00011002 ∧ (nextOf (step (State.reset.withFetchWord 32 0x80000000))).map State.statusWord =
    some 0x00012000 := by decide

/-- Z1. -/
theorem test_step_reset : (nextOf (step { readyCycle with err := true, inputs := [.reset] })) = some State.reset := by
  decide

/-! ### Witnesses: concrete states and operands that meet the hypotheses of each statement -/

theorem closedErr_inv : StateInv closedErr where
  params := ⟨by decide, by decide, by decide⟩
  bufWf := by decide
  bufRange := by decide
  coefxLength := by simp [closedErr, State.reset]
  sessCode := by decide
  tableReady := by decide
  closedFlags := fun _ => by unfold NoValidFlag; decide
  closedBuf := by decide
  flagsReady := fun _ => by unfold NoValidFlag; decide
  ovT_eq_fv := by decide
  outputsNeedFine := by decide
  fineNeedsSample := by decide
  errLast := by decide
  lastErr := by decide
  reservedBits := by decide
  noPressure := by decide
  noHumidity := by decide
  fineBound := by simp [closedErr, State.reset]

theorem witness_DecodeInvertsEncode : decode 0x4000FFFF = .ok (.rxb 255 255) := by decide

theorem witness_IllegalWordsAreTheFourKinds :
    (ready.present 0x73000000).inputs = .command 0x73000000 :: [] ∧
    decode 0x73000000 = .error .reservedQuantity := by decide

theorem witness_DecodeFollowsTheOpcodeMap : ∃ r ∈ opcodeMap, (0x7200FF00 : Word) &&& r.mask = r.pattern :=
  ⟨{ pattern := 0x72000000, mask := 0xFFFF00FF, command := .asmH 0 }, by decide⟩

theorem witness_StepRunsTheDecodedCommand :
    (ready.present 0x50000000).inputs = .command 0x50000000 :: [] ∧ decode 0x50000000 = .ok .rxclr := by decide

theorem witness_StepWaitsWithoutInput : readyCycle.inputs = [] := by decide

theorem witness_ResetLeavesTheResetState : ∃ s : State, s.inputs = .reset :: [.command 0x10000000] ∧ s.err = true :=
  ⟨{ readyCycle with err := true, inputs := [.reset, .command 0x10000000] }, by decide⟩

theorem witness_OnlyResetClearsErr :
    closedErr.err = true ∧ (∃ t, step (closedErr.present 0x10000000) = .next t) ∧
    (∃ t, step { closedErr with inputs := [.reset] } = .next t ∧ t.err = false) :=
  ⟨by decide, ⟨_, rfl⟩, ⟨_, rfl, by decide⟩⟩

theorem witness_StepKeepsParamsAndTakesOneInput : ∃ t, step (readyFull.present 0xA0000000) = .next t := ⟨_, rfl⟩

/-- Its first outcome, its second with a legal word and with an illegal one. -/
theorem witness_CommandEndsInSuccessOrFault :
    (∃ t, step (ready.present 0x10000000) = .next t ∧ t.last = .ok) ∧
    (∃ t, step (ready.present 0x20000000) = .next t ∧ t.last = .opened) ∧
    (∃ t, step (ready.present 0xF0000000) = .next t ∧ t.last = .illegal) :=
  ⟨⟨_, rfl, by decide⟩, ⟨_, rfl, by decide⟩, ⟨_, rfl, by decide⟩⟩

/-- Each outcome of the search: every code of the priority list, and none. -/
theorem witness_FirstCauseIsReported :
    faultPriority.find? (fun e => faultCause e .compP State.reset) = some .notReady ∧
    faultPriority.find? (fun e => faultCause e .openSession ready) = some .opened ∧
    faultPriority.find? (fun e => faultCause e (.ldcal 255) ready) = some .locked ∧
    faultPriority.find? (fun e => faultCause e .compP ready) = some .unimpl ∧
    faultPriority.find? (fun e => faultCause e (.asmT 6) readyBytes) = some .range ∧
    faultPriority.find? (fun e => faultCause e (.asmT 4) readyBytes) = some .stale ∧
    faultPriority.find? (fun e => faultCause e .compH readyNoSample) = some .noSample ∧
    faultPriority.find? (fun e => faultCause e .compH readyNoFine) = some .noFine ∧
    faultPriority.find? (fun e => faultCause e (.asmT 5) readyBytes) = none ∧
    (∃ t, exec (.asmT 6) readyBytes = .next t) :=
  ⟨by decide, by decide, by decide, by decide, by decide, by decide, by decide, by decide, by decide, ⟨_, rfl⟩⟩

theorem witness_CommandsDoNotReadLastErrOrInputs :
    (∃ t, exec .compT readySample = .next t ∧ t.last = .ok) ∧ (∃ t, exec .compT ready = .next t ∧ t.last ≠ .ok) :=
  ⟨⟨_, rfl, by decide⟩, ⟨_, rfl, by decide⟩⟩

theorem witness_OpenBeginsASession :
    closedErr.sess = .closed ∧ configuring.sess ≠ .closed ∧ ready.sess ≠ .closed := by decide

theorem witness_CloseForgetsTheSession : (7 < readyCycle.params.bufSize ∧ readyCycle.bv 7 = true) ∧
    (∀ c ∈ readyCycle.buf, c.1 < readyCycle.params.bufSize) ∧
    (StateInv closedErr ∧ closedErr.sess = .closed) ∧
    (∃ t, exec .closeSession readyCycle = .next t ∧ Instr.compT ∉ [Instr.nop, .openSession, .closeSession]) :=
  ⟨by decide, by decide, ⟨closedErr_inv, rfl⟩, ⟨_, rfl, by decide⟩⟩

/-- Both kinds of cell, the two outcomes of a success cell, an illegal word and the reset. -/
theorem witness_SessionFollowsTheTransitionTable :
    (∃ t, exec (.ldcal 2) configuring = .next t ∧ sessionCell (.ldcal 2) configuring.sess.code = .ok 2 ∧
      t.last = .ok) ∧
    (∃ t, exec (.ldcal 3) configuring = .next t ∧ t.last ≠ .ok) ∧
    (∃ t, exec (.ldcal 2) ready = .next t ∧ sessionCell (.ldcal 2) ready.sess.code = .error .locked) ∧
    (∃ t, step (ready.present 0) = .next t ∧ decode 0 = .error .neverLegal) ∧
    (∃ t, step { ready with inputs := [.reset] } = .next t) :=
  ⟨⟨_, rfl, by decide, by decide⟩, ⟨_, rfl, by decide⟩, ⟨_, rfl, by decide⟩, ⟨_, rfl, by decide⟩, ⟨_, rfl⟩⟩

theorem witness_TableIsImmutableInASession :
    (readyBytes.table = some table ∧ ∃ t, exec (.asmT 5) readyBytes = .next t) ∧
    (configuring.table = none ∧ ∃ t, exec (.ldcal 2) configuring = .next t ∧ t.table ≠ none) :=
  ⟨⟨by decide, ⟨_, rfl⟩⟩, by decide, ⟨_, rfl, by decide⟩⟩

/-- The last legal offset, Closed, and the first illegal offset. -/
theorem witness_RxbStoresItsByte :
    (ready.sess ≠ .closed ∧ (7 : Byte).toNat + 1 ≤ ready.params.bufSize) ∧ State.reset.sess = .closed ∧
    (ready.sess ≠ .closed ∧ (8 : Byte).toNat ≥ ready.params.bufSize) := by decide

theorem witness_RxclrInvalidatesTheBuffer :
    (readyBytes.sess ≠ .closed ∧ readyBytes.bv 7 = true) ∧ State.reset.sess = .closed := by decide

/-- A success at the last legal offset, then the four faults, the range fault one offset further. -/
theorem witness_LdcalLoadsTheTable :
    (configuring.params.Valid ∧ configuring.sess = .configuring ∧
      (2 : Byte).toNat + configuring.params.calLen ≤ configuring.params.bufSize ∧
      ∀ i < configuring.params.calLen, byteAt configuring.buf ((2 : Byte).toNat + i) =
        some (([0x70, 0x6B, 0x43, 0x67, 0x18, 0xFC] : List Byte).getD i 0)) ∧
    State.reset.sess = .closed ∧ ready.sess = .ready table ∧
    (configuring.sess = .configuring ∧ (3 : Byte).toNat + configuring.params.calLen > configuring.params.bufSize) ∧
    (configuring.sess = .configuring ∧ (1 : Byte).toNat + configuring.params.calLen ≤ configuring.params.bufSize ∧
      ∃ i < configuring.params.calLen, configuring.bv ((1 : Byte).toNat + i) = false) :=
  ⟨⟨⟨by decide, by decide, by decide⟩, by decide, by decide, by decide⟩, by decide, by decide, by decide, by decide,
    by decide, 0, by decide⟩

/-- A success at the last legal offset, then the three faults, the range fault one offset further. -/
theorem witness_AsmAssemblesTheSample :
    (readyBytes.sess = .ready table ∧ (5 : Byte).toNat + 3 ≤ readyBytes.params.bufSize ∧
      byteAt readyBytes.buf (5 : Byte).toNat = some 0x7E ∧ byteAt readyBytes.buf ((5 : Byte).toNat + 1) = some 0xED ∧
      byteAt readyBytes.buf ((5 : Byte).toNat + 2) = some 0x0F) ∧
    (∀ c, configuring.sess ≠ .ready c) ∧
    (6 : Byte).toNat + 3 > readyBytes.params.bufSize ∧
    ((4 : Byte).toNat + 3 ≤ readyBytes.params.bufSize ∧ ∃ k < 3, readyBytes.bv ((4 : Byte).toNat + k) = false) :=
  ⟨by decide, by simp [configuring], by decide, by decide, 0, by decide⟩

theorem witness_CoefficientByteLaws : le16 0x34 0x12 = le16 0x34 0x12 := rfl

theorem witness_ReadsConsumeAndRxbIsIdempotent :
    (∃ t, exec (.asmH 5) readyBytes = .next t ∧ t.last = .ok) ∧ (∃ t, exec (.rxb 7 1) ready = .next t ∧ t.last = .ok) :=
  ⟨⟨_, rfl, by decide⟩, ⟨_, rfl, by decide⟩⟩

theorem witness_CompTWritesTheFormulaResults :
    (readySample.sess = .ready table ∧ readySample.rawT = some 519888) ∧ (∀ c, configuring.sess ≠ .ready c) ∧
    (ready.sess = .ready table ∧ ready.rawT = none) :=
  ⟨by decide, by simp [configuring], by decide⟩

theorem witness_CompPWritesThePressure :
    (∃ c, readyFull.sess = .ready c ∧ readyFull.params.hasP = true ∧ readyFull.rawP = some 415148 ∧
      readyFull.fine = some 128422) ∧
    (∀ c, configuring.sess ≠ .ready c) ∧
    (readyCycle.sess = .ready table ∧ readyCycle.params.hasP = false) ∧
    (∃ c, readyNoSample.sess = .ready c ∧ readyNoSample.params.hasP = true ∧ readyNoSample.rawP = none) ∧
    (∃ c, readyNoFine.sess = .ready c ∧ readyNoFine.params.hasP = true ∧ readyNoFine.rawP = some 415148 ∧
      readyNoFine.fine = none) :=
  ⟨⟨_, rfl, by decide⟩, by simp [configuring], by decide, ⟨_, rfl, by decide⟩, ⟨_, rfl, by decide⟩⟩

theorem witness_CompHWritesTheHumidity :
    (∃ c, readyFull.sess = .ready c ∧ readyFull.params.hasH = true ∧ readyFull.rawH = some 1 ∧
      readyFull.fine = some 128422) ∧
    (∀ c, configuring.sess ≠ .ready c) ∧
    (readyCycle.sess = .ready table ∧ readyCycle.params.hasH = false) ∧
    (∃ c, readyNoSample.sess = .ready c ∧ readyNoSample.params.hasH = true ∧ readyNoSample.rawH = none) ∧
    (∃ c, readyNoFine.sess = .ready c ∧ readyNoFine.params.hasH = true ∧ readyNoFine.rawH = some 1 ∧
      readyNoFine.fine = none) :=
  ⟨⟨_, rfl, by decide⟩, by simp [configuring], by decide, ⟨_, rfl, by decide⟩, ⟨_, rfl, by decide⟩⟩

theorem witness_RnIsNearestTiesToEven : (9008281584410625 / 2 ^ 34 : ℚ) ≠ 0 ∧
    (2 ^ 52 ≤ |(2 ^ 52 : ℤ)| ∧ |(2 ^ 52 : ℤ)| < 2 ^ 53) := by norm_num

/-- The largest significand at the smallest exponent, the smallest at the largest. -/
theorem witness_PatternHasTheBinary64Fields :
    (2 ^ 52 ≤ 2 ^ 53 - 1 ∧ 2 ^ 53 - 1 < 2 ^ 53 ∧ (-1074 : ℤ) ≤ -1074 ∧ (-1074 : ℤ) ≤ 971) ∧
    (2 ^ 52 ≤ 2 ^ 52 ∧ 2 ^ 52 < 2 ^ 53 ∧ (-1074 : ℤ) ≤ 971 ∧ (971 : ℤ) ≤ 971) := by norm_num

theorem witness_R53IsRnOnIntegers : (9008281584410625 : Int) ≠ 0 := by decide

/-- T1 has a non-zero sum, T25 a zero one. -/
theorem witness_CompTResultsStayInRange :
    stageS (stageD 519888 27504) 26435 64536 ≠ 0 ∧ stageS (stageD 524288 0) 1 (BitVec.ofInt 16 (-2)) = 0 := by decide

/-- T25 and the one case of `-0`, T20. -/
theorem witness_ZeroResultsHaveTheirSign :
    stageN (stageD 524288 0) 1 (BitVec.ofInt 16 (-2)) = 0 ∧
    stageN (stageD 16 1) (BitVec.ofInt 16 (-1)) (BitVec.ofInt 16 (-1)) = 0 := by decide

/-- Two states that agree in sample and table only. -/
theorem witness_CompTIsPureAndRepeatable :
    (∃ t t', exec .compT readySample = .next t ∧ exec .compT readyFull = .next t' ∧ t.last = .ok) ∧
    (readySample.rawT = readyFull.rawT ∧ readySample.sess ≠ readyFull.sess ∧ ∃ c c', readySample.sess = .ready c ∧
      readyFull.sess = .ready c' ∧ c.t1 = c'.t1 ∧ c.t2 = c'.t2 ∧ c.t3 = c'.t3) :=
  ⟨⟨_, _, rfl, rfl, by decide⟩, by decide, by decide, _, _, rfl, rfl, by decide⟩

/-- A success of every command that sets or clears a flag. -/
theorem witness_FlagsFollowTheirEvents :
    (∃ t, exec (.asmT 5) readyFull = .next t ∧ t.last = .ok) ∧ (∃ t, exec (.asmP 5) ready = .next t ∧ t.last ≠ .ok) ∧
    (∃ t, exec (.asmH 5) readyFull = .next t ∧ t.last = .ok) ∧ (∃ t, exec .compT readyFull = .next t ∧ t.last = .ok) ∧
    (∃ t, exec .compP readyFull = .next t ∧ t.last = .ok) ∧ (∃ t, exec .compH readyFull = .next t ∧ t.last = .ok) ∧
    (∃ t, exec (.rxb 7 0) readyFull = .next t ∧ t.last = .ok) ∧ (∃ t, exec .rxclr readyFull = .next t ∧ t.last = .ok) ∧
    (∃ t, exec (.ldcal 2) configuring = .next t ∧ t.last = .ok) ∧
    (∃ t, exec .closeSession readyFull = .next t ∧ t.last = .ok) :=
  ⟨⟨_, rfl, by decide⟩, ⟨_, rfl, by decide⟩, ⟨_, rfl, by decide⟩, ⟨_, rfl, by decide⟩, ⟨_, rfl, by decide⟩,
    ⟨_, rfl, by decide⟩, ⟨_, rfl, by decide⟩, ⟨_, rfl, by decide⟩, ⟨_, rfl, by decide⟩, ⟨_, rfl, by decide⟩⟩

/-- A failing command and a reset beside them. -/
theorem witness_FlagsFollowTheirEvents_faults_and_reset :
    (∃ t, exec .compP readyNoFine = .next t ∧ t.last ≠ .ok) ∧
    (∃ t, step { readyFull with inputs := [.reset] } = .next t) := ⟨⟨_, rfl, by decide⟩, ⟨_, rfl⟩⟩

theorem witness_PortsShowTheRegisters : State.reset.rvT = false ∧ State.reset.rvP = false ∧ State.reset.rvH = false ∧
    State.reset.fv = false ∧ State.reset.ovT = false ∧ State.reset.ovP = false ∧ State.reset.ovH = false := by decide

theorem witness_FrameOfNopAndOpen :
    (∃ t, exec .nop ready = .next t) ∧ (∃ t, exec .openSession ready = .next t) := ⟨⟨_, rfl⟩, ⟨_, rfl⟩⟩

theorem witness_FrameOfClose : ∃ t, exec .closeSession readyFull = .next t := ⟨_, rfl⟩

/-- A success at the last offset of the buffer and a fault. -/
theorem witness_FrameOfRxb :
    (∃ t, exec (.rxb 7 1) readyFull = .next t ∧ t.last = .ok) ∧ (∃ t, exec (.rxb 8 1) readyFull = .next t ∧ t.last ≠ .ok) :=
  ⟨⟨_, rfl, by decide⟩, ⟨_, rfl, by decide⟩⟩

theorem witness_FrameOfRxclr : ∃ t, exec .rxclr readyFull = .next t ∧ t.last = .ok := ⟨_, rfl, by decide⟩

theorem witness_FrameOfLdcal :
    (∃ t, exec (.ldcal 2) configuring = .next t ∧ t.last = .ok) ∧
    (∃ t, exec (.ldcal 3) configuring = .next t ∧ t.last ≠ .ok) :=
  ⟨⟨_, rfl, by decide⟩, ⟨_, rfl, by decide⟩⟩

theorem witness_FrameOfAsm :
    (∃ t, exec (.asmT 5) readyBytes = .next t ∧ t.last = .ok) ∧ (∃ t, exec (.asmP 5) readyBytes = .next t ∧ t.last = .ok) ∧
    (∃ t, exec (.asmH 6) readyBytes = .next t ∧ t.last ≠ .ok) :=
  ⟨⟨_, rfl, by decide⟩, ⟨_, rfl, by decide⟩, ⟨_, rfl, by decide⟩⟩

theorem witness_FrameOfCompensation :
    (∃ t, exec .compT readyFull = .next t ∧ t.last = .ok) ∧ (∃ t, exec .compP readyFull = .next t ∧ t.last = .ok) ∧
    (∃ t, exec .compH readyFull = .next t ∧ t.last = .ok) :=
  ⟨⟨_, rfl, by decide⟩, ⟨_, rfl, by decide⟩, ⟨_, rfl, by decide⟩⟩

/-- The smallest and the largest buffer. -/
theorem witness_ResetMeetsTheInvariant :
    Params.Valid { bufSize := 6, calLen := 6, hasP := false, hasH := false } ∧
    Params.Valid { bufSize := 256, calLen := 256, hasP := true, hasH := true } :=
  ⟨⟨by decide, by decide, by decide⟩, ⟨by decide, by decide, by decide⟩⟩

theorem witness_StepKeepsStateInv : StateInv readyCycle ∧ ∃ t, step (readyCycle.present 0x70000500) = .next t :=
  ⟨{ params := ⟨by decide, by decide, by decide⟩
     bufWf := by decide
     bufRange := by decide
     coefxLength := by simp [readyCycle, readySample, ready, table, State.reset, Params.default]
     sessCode := by decide
     tableReady := by decide
     closedFlags := by simp [readyCycle, readySample, ready]
     closedBuf := by decide
     flagsReady := by simp [IsReady, State.table, readyCycle, readySample, ready]
     ovT_eq_fv := by decide
     outputsNeedFine := by decide
     fineNeedsSample := by decide
     errLast := by decide
     lastErr := by decide
     reservedBits := by decide
     noPressure := by decide
     noHumidity := by decide
     fineBound := by simp [readyCycle] }, ⟨_, rfl⟩⟩

theorem witness_StepKeepsResultsCurrent : ResultsCurrent readyCycle ∧ readyCycle.fv = true ∧
    ∃ t, step (readyCycle.present 0x71000500) = .next t :=
  ⟨fun f h => ⟨519888, table, rfl, rfl, by
      obtain rfl : (128422 : BitVec 32) = f := Option.some.inj h
      decide⟩, by decide, ⟨_, rfl⟩⟩

theorem witness_RunsEndAndAreFaultFreeWhenEveryCommandIs :
    StateInv closedErr ∧
    HostInput.reset ∉ [HostInput.command 0x20000000, .command 0x10000000] ∧ FaultFree State.reset ∧
    ∃ u, Sys2Proof.core.run 1 { State.reset with inputs := [.command 0x20000000, .command 0x10000000] } = .next u ∧
      u.last = .ok :=
  ⟨closedErr_inv, by decide, by simp [FaultFree, State.reset], _, rfl, by decide⟩

end Sys2Proof.Tests
end

section
/-!
SUPPORT. `RN` over the rationals and the 64-bit patterns of binary64 values (00_scope.md R7, R9). `RN(x)` is an integer
significand times the unit in the last place of `x`; what the rounding of the significand does is said first, with no
exponent in it, and then carried to `RN` by the scaling.
-/
namespace Sys2Proof.Machine

/-! ### Rounding a rational to an integer, ties to even -/

/-- The integer next to `q`, ties to even: the step from `q` to `m` in 00_scope.md R7. -/
def roundTiesToEven (q : ℚ) : ℤ :=
  if q - ⌊q⌋ < 1 / 2 then ⌊q⌋ else if q - ⌊q⌋ > 1 / 2 then ⌊q⌋ + 1 else if ⌊q⌋ % 2 = 0 then ⌊q⌋ else ⌊q⌋ + 1

/-- All that rounding can do: down by at most a half, or up by at most a half, to an even integer at exactly a half. -/
theorem roundTiesToEven_cases (q : ℚ) :
    (roundTiesToEven q = ⌊q⌋ ∧ q - ⌊q⌋ ≤ 1 / 2 ∧ (q - ⌊q⌋ = 1 / 2 → roundTiesToEven q % 2 = 0)) ∨
    (roundTiesToEven q = ⌊q⌋ + 1 ∧ 1 / 2 ≤ q - ⌊q⌋ ∧ (q - ⌊q⌋ = 1 / 2 → roundTiesToEven q % 2 = 0)) := by
  unfold roundTiesToEven
  split_ifs with hlt hgt heven
  · exact .inl ⟨rfl, hlt.le, fun h => absurd h hlt.ne⟩
  · exact .inr ⟨rfl, hgt.le, fun h => absurd h hgt.ne'⟩
  · exact .inl ⟨rfl, not_lt.mp hgt, fun _ => heven⟩
  · exact .inr ⟨rfl, not_lt.mp hlt, fun _ => by omega⟩

theorem abs_roundTiesToEven_sub_le (q : ℚ) : |(roundTiesToEven q : ℚ) - q| ≤ 1 / 2 := by
  have hfloor := Int.floor_le q
  have hceil := Int.lt_floor_add_one q
  obtain ⟨h, hle, -⟩ | ⟨h, hge, -⟩ := roundTiesToEven_cases q
  · rw [h, abs_le]
    constructor <;> linarith
  · rw [h, abs_le]
    push_cast
    constructor <;> linarith

theorem roundTiesToEven_even_of_tie {q : ℚ} (h : |(roundTiesToEven q : ℚ) - q| = 1 / 2) :
    roundTiesToEven q % 2 = 0 := by
  have hfloor := Int.floor_le q
  have hceil := Int.lt_floor_add_one q
  obtain ⟨hr, -, heven⟩ | ⟨hr, -, heven⟩ := roundTiesToEven_cases q
  · rw [hr, abs_of_nonpos (by linarith)] at h
    exact heven (by linarith)
  · rw [hr, Int.cast_add, Int.cast_one, abs_of_nonneg (by linarith)] at h
    exact heven (by linarith)

/-- An integer that is not the rounded one is at least a half away. -/
theorem half_le_abs_sub_of_ne_roundTiesToEven {q : ℚ} {k : ℤ} (hk : k ≠ roundTiesToEven q) : 1 / 2 ≤ |(k : ℚ) - q| := by
  have hapart : (1 : ℚ) ≤ |(k : ℚ) - roundTiesToEven q| := by exact_mod_cast Int.one_le_abs (sub_ne_zero.mpr hk)
  have htri := abs_sub_le (k : ℚ) q (roundTiesToEven q)
  have hround := abs_roundTiesToEven_sub_le q
  rw [abs_sub_comm] at hround
  linarith

theorem roundTiesToEven_nearest (q : ℚ) (k : ℤ) : |(roundTiesToEven q : ℚ) - q| ≤ |(k : ℚ) - q| := by
  by_cases hk : k = roundTiesToEven q
  · rw [hk]
  · exact (abs_roundTiesToEven_sub_le q).trans (half_le_abs_sub_of_ne_roundTiesToEven hk)

theorem eq_or_even_of_equally_near {q : ℚ} {k : ℤ} (h : |(roundTiesToEven q : ℚ) - q| = |(k : ℚ) - q|) :
    k = roundTiesToEven q ∨ roundTiesToEven q % 2 = 0 := by
  by_cases hk : k = roundTiesToEven q
  · exact .inl hk
  · refine .inr (roundTiesToEven_even_of_tie (le_antisymm (abs_roundTiesToEven_sub_le q) ?_))
    exact h ▸ half_le_abs_sub_of_ne_roundTiesToEven hk

/-- Rounding leaves an interval with integer ends only onto its ends. -/
theorem abs_roundTiesToEven_bounds {q : ℚ} {a b : ℤ} (ha : (a : ℚ) ≤ |q|) (hb : |q| < b) :
    a ≤ |roundTiesToEven q| ∧ |roundTiesToEven q| ≤ b := by
  have hround := (abs_abs_sub_abs_le (roundTiesToEven q : ℚ) q).trans (abs_roundTiesToEven_sub_le q)
  obtain ⟨hlow, hhigh⟩ := abs_le.mp hround
  have hlow' : (a : ℚ) < (|roundTiesToEven q| + 1 : ℤ) := by push_cast; linarith
  have hhigh' : ((|roundTiesToEven q| : ℤ) : ℚ) < (b + 1 : ℤ) := by push_cast; linarith
  exact ⟨Int.lt_add_one_iff.mp (Int.cast_lt.mp hlow'), Int.lt_add_one_iff.mp (Int.cast_lt.mp hhigh')⟩

/-! ### `RN` is a rounded significand times the unit in the last place -/

/-- The unit in the last place of `x`, for a significand of 53 bits. -/
def rnUlp (x : ℚ) : ℚ := 2 ^ (Int.log 2 |x| - 52)

/-- The integer significand of `RN(x)`, from `2^52` to `2^53`. -/
def rnSignificand (x : ℚ) : ℤ := roundTiesToEven (x / rnUlp x)

theorem rn_eq (x : ℚ) : rn x = rnSignificand x * rnUlp x := rfl

theorem rnUlp_pos (x : ℚ) : 0 < rnUlp x := zpow_pos two_pos _

theorem two_pow_mul_rnUlp (x : ℚ) (n : ℕ) : 2 ^ (52 + n) * rnUlp x = 2 ^ (Int.log 2 |x| + n) := by
  rw [rnUlp, ← zpow_natCast, ← zpow_add₀ two_ne_zero]
  congr 1
  push_cast
  ring

/-- The binade of `x`, in units in the last place. -/
theorem binade_bounds {x : ℚ} (hx : x ≠ 0) : 2 ^ 52 * rnUlp x ≤ |x| ∧ |x| < 2 ^ 53 * rnUlp x := by
  constructor
  · rw [two_pow_mul_rnUlp x 0, Nat.cast_zero, add_zero]
    exact Int.zpow_log_le_self one_lt_two (abs_pos.mpr hx)
  · rw [two_pow_mul_rnUlp x 1, Nat.cast_one]
    exact Int.lt_zpow_succ_log_self one_lt_two _

theorem abs_rnSignificand_bounds {x : ℚ} (hx : x ≠ 0) : 2 ^ 52 ≤ |rnSignificand x| ∧ |rnSignificand x| ≤ 2 ^ 53 := by
  obtain ⟨hlow, hhigh⟩ := binade_bounds hx
  have hquot : |x / rnUlp x| = |x| / rnUlp x := by rw [abs_div, abs_of_pos (rnUlp_pos x)]
  refine abs_roundTiesToEven_bounds ?_ ?_
  · rw [hquot, le_div_iff₀ (rnUlp_pos x)]
    exact_mod_cast hlow
  · rw [hquot, div_lt_iff₀ (rnUlp_pos x)]
    exact_mod_cast hhigh

/-- `RN(x)` has a significand of 53 bits, even when the integer significand is: one that rounds up to `2^53` is `2^52`
at the next exponent. -/
theorem rn_has_53_bit_significand {x : ℚ} (hx : x ≠ 0) : ∃ m e : ℤ, 2 ^ 52 ≤ |m| ∧ |m| < 2 ^ 53 ∧
    rn x = (m : ℚ) * 2 ^ e ∧ (rnSignificand x % 2 = 0 → m % 2 = 0) := by
  obtain ⟨hlow, hhigh⟩ := abs_rnSignificand_bounds hx
  rcases hhigh.lt_or_eq with hlt | heq
  · exact ⟨rnSignificand x, _, hlow, hlt, rn_eq x, id⟩
  · obtain ⟨m, hm, hsig⟩ : ∃ m : ℤ, |m| = 2 ^ 52 ∧ rnSignificand x = m * 2 := by
      rcases (abs_eq (by positivity)).mp heq with h | h
      · exact ⟨2 ^ 52, by norm_num, by rw [h]; norm_num⟩
      · exact ⟨-2 ^ 52, by norm_num, by rw [h]; norm_num⟩
    have heven : m % 2 = 0 := by
      rcases (abs_eq (by positivity)).mp hm with h | h <;> omega
    refine ⟨m, Int.log 2 |x| - 52 + 1, hm.ge, by rw [hm]; norm_num, ?_, fun _ => heven⟩
    rw [rn_eq, hsig, rnUlp, zpow_add_one₀ two_ne_zero]
    push_cast
    ring

/-! ### No value with a significand of 53 bits is nearer -/

/-- Distances to `x` among the multiples of its unit in the last place are distances to the quotient, scaled. -/
theorem abs_mul_rnUlp_sub (x : ℚ) (k : ℤ) : |k * rnUlp x - x| = |(k : ℚ) - x / rnUlp x| * rnUlp x := by
  have hscale : k * rnUlp x - x = ((k : ℚ) - x / rnUlp x) * rnUlp x := by
    rw [sub_mul, div_mul_cancel₀ x (rnUlp_pos x).ne']
  rw [hscale, abs_mul, abs_of_pos (rnUlp_pos x)]

theorem rn_nearest_multiple (x : ℚ) (k : ℤ) : |rn x - x| ≤ |k * rnUlp x - x| := by
  rw [rn_eq, abs_mul_rnUlp_sub, abs_mul_rnUlp_sub]
  exact mul_le_mul_of_nonneg_right (roundTiesToEven_nearest _ k) (rnUlp_pos x).le

theorem rn_tie_multiple {x : ℚ} {k : ℤ} (h : |rn x - x| = |k * rnUlp x - x|) :
    k * rnUlp x = rn x ∨ rnSignificand x % 2 = 0 := by
  rw [rn_eq, abs_mul_rnUlp_sub, abs_mul_rnUlp_sub] at h
  rcases eq_or_even_of_equally_near (mul_right_cancel₀ (rnUlp_pos x).ne' h) with hk | heven
  · exact .inl (by rw [rn_eq, hk, rnSignificand])
  · exact .inr heven

/-- A value below the binade of `x` is further away than the binade's lower end, so than `RN(x)`. -/
theorem rn_nearer_than_below_binade {x d : ℚ} (hx : x ≠ 0) (hd : |d| < 2 ^ 52 * rnUlp x) : |rn x - x| < |d - x| := by
  obtain ⟨hlow, -⟩ := binade_bounds hx
  have hend : |rn x - x| ≤ |x| - 2 ^ 52 * rnUlp x := by
    rcases abs_cases x with ⟨habs, -⟩ | ⟨habs, -⟩
    · refine (rn_nearest_multiple x (2 ^ 52)).trans_eq ?_
      push_cast
      rw [abs_of_nonpos (by linarith), habs]
      ring
    · refine (rn_nearest_multiple x (-2 ^ 52)).trans_eq ?_
      push_cast
      rw [abs_of_nonneg (by linarith), habs]
      ring
  have htri := abs_sub_abs_le_abs_sub x d
  rw [abs_sub_comm x d] at htri
  linarith

/-- A value with a significand of 53 bits is a multiple of the unit in the last place of `x`, or below its binade. -/
theorem multiple_or_below_binade (x : ℚ) {m : ℤ} (e : ℤ) (hm : |m| < 2 ^ 53) :
    (∃ k : ℤ, (m : ℚ) * 2 ^ e = k * rnUlp x) ∨ |(m : ℚ) * 2 ^ e| < 2 ^ 52 * rnUlp x := by
  rcases le_or_gt (Int.log 2 |x| - 52) e with hle | hlt
  · obtain ⟨n, rfl⟩ := Int.le.dest hle
    refine .inl ⟨m * 2 ^ n, ?_⟩
    rw [rnUlp, zpow_add₀ two_ne_zero, zpow_natCast]
    push_cast
    ring
  · have hm' : |(m : ℚ)| < 2 ^ 53 := by exact_mod_cast hm
    refine .inr ?_
    calc |(m : ℚ) * 2 ^ e| = |(m : ℚ)| * 2 ^ e := by rw [abs_mul, abs_of_pos (zpow_pos two_pos e : (0 : ℚ) < 2 ^ e)]
      _ < 2 ^ 53 * 2 ^ e := mul_lt_mul_of_pos_right hm' (zpow_pos two_pos e)
      _ = 2 ^ 52 * 2 ^ (e + 1) := by rw [zpow_add_one₀ two_ne_zero]; ring
      _ ≤ 2 ^ 52 * rnUlp x :=
        mul_le_mul_of_nonneg_left (zpow_le_zpow_right₀ one_le_two (by omega)) (by positivity)

/-- Settles O30: a value of the form is a multiple of the unit in the last place of `x`, where rounding the significand
decides, or lies below the binade of `x`, where it is further away than `RN(x)`. -/
theorem rnIsNearestTiesToEven : Obligations.RnIsNearestTiesToEven := by
  unfold Obligations.RnIsNearestTiesToEven
  intro x hx
  obtain ⟨m, e, hlow, hhigh, hrn, heven⟩ := rn_has_53_bit_significand hx
  refine ⟨m, e, hlow, hhigh, hrn, fun m' e' _ hm' => ?_⟩
  rcases multiple_or_below_binade x e' hm' with ⟨k, hk⟩ | hbelow
  · rw [hk]
    exact ⟨rn_nearest_multiple x k, fun htie => (rn_tie_multiple htie).imp_right heven⟩
  · have hlt := rn_nearer_than_below_binade hx hbelow
    exact ⟨hlt.le, fun htie => absurd htie hlt.ne⟩

/-! ### The fields of a 64-bit pattern (00_scope.md R9) -/

theorem bits64_normal_sign (neg : Bool) (m : ℕ) (e : ℤ) : (bits64 (.normal neg m e)).getLsbD 63 = neg := by
  rw [bits64, BitVec.append_assoc, BitVec.getLsbD_cast]
  exact (BitVec.getLsbD_append ..).trans (by simp)

theorem bits64_normal_exponent (neg : Bool) (m : ℕ) (e : ℤ) :
    (bits64 (.normal neg m e)).extractLsb' 52 11 = BitVec.ofNat 11 (e + 1075).toNat :=
  (BitVec.extractLsb'_append_eq_of_le (by omega)).trans BitVec.extractLsb'_append_eq_right

theorem bits64_normal_fraction (neg : Bool) (m : ℕ) (e : ℤ) :
    (bits64 (.normal neg m e)).extractLsb' 0 52 = BitVec.ofNat 52 (m - 2 ^ 52) :=
  BitVec.extractLsb'_append_eq_right

/-- Settles O31: the fields are the three parts `bits64` joins, and in the stated range none of them is cut. -/
theorem patternHasTheBinary64Fields : Obligations.PatternHasTheBinary64Fields := by
  unfold Obligations.PatternHasTheBinary64Fields
  refine ⟨fun neg m e _ hm helow hehigh => ⟨bits64_normal_sign neg m e, ?_, ?_⟩, by decide, by decide⟩
  · have hfit : (e + 1075).toNat < 2 ^ 11 := by omega
    rw [bits64_normal_exponent, BitVec.toNat_ofNat, Nat.mod_eq_of_lt hfit, Int.toNat_of_nonneg (by omega)]
  · have hfit : m - 2 ^ 52 < 2 ^ 52 := by omega
    rw [bits64_normal_fraction, BitVec.toNat_ofNat, Nat.mod_eq_of_lt hfit]

end Sys2Proof.Machine
end

section
/-!
SUPPORT. The ranges of `COMPT`'s stages on integers (42_compensation.md R75 to R79, R86). `R53` never passes a
multiple of its unit in the last place, so a range whose end is such a multiple survives it.
-/
namespace Sys2Proof.Machine

theorem bitLength_le_of_lt {a n : Nat} (h : a < 2 ^ n) : bitLength a ≤ n := by
  by_cases ha : a = 0
  · simp [ha]
  · rw [bitLength_pos ha]
    exact (Nat.log2_lt ha).mpr h

theorem abs_sign_mul_natCast_le (n : Int) (k : Nat) : |n.sign * k| ≤ k := by
  rcases Int.sign_trichotomy n with h | h | h <;> simp [h]

/-- `R53` rounds up only past a magnitude that is no multiple of `2^k`, so never past a multiple above it. -/
theorem r53Nat_le_of_dvd {a b : Nat} (hab : a ≤ b) (hb : 2 ^ (bitLength a - 53) ∣ b) : r53Nat a ≤ b := by
  obtain ⟨m, rfl⟩ := hb
  unfold r53Nat
  dsimp only
  generalize bitLength a - 53 = k at hab ⊢
  rw [Nat.shiftLeft_eq, Nat.shiftLeft_eq, Nat.shiftRight_eq_div_pow]
  have hdown : a / 2 ^ k * 2 ^ k ≤ a := Nat.div_mul_le_self a (2 ^ k)
  split_ifs with hexact hround
  · exact hab
  · have hpos : 0 < 2 ^ (k - 1) := Nat.two_pow_pos _
    have hbelow : a / 2 ^ k * 2 ^ k < m * 2 ^ k := by
      rw [Nat.mul_comm m]
      omega
    rw [Nat.mul_comm (2 ^ k)]
    exact Nat.mul_le_mul_right _ (Nat.lt_of_mul_lt_mul_right hbelow)
  · exact hdown.trans hab

/-- A range of integers is kept by `R53` when its end `b` is a multiple of `2^j` below `2^(53+j)`. -/
theorem abs_r53_le {n : Int} {b : Nat} (j : Nat) (hn : |n| ≤ b) (hb : b < 2 ^ (53 + j)) (hdvd : 2 ^ j ∣ b) :
    |r53 n| ≤ b := by
  have hle : n.natAbs ≤ b := by rw [Int.abs_eq_natAbs] at hn; exact_mod_cast hn
  have hbits : bitLength n.natAbs - 53 ≤ j := by
    have := bitLength_le_of_lt (hle.trans_lt hb)
    omega
  have hround := r53Nat_le_of_dvd hle ((Nat.pow_dvd_pow 2 hbits).trans hdvd)
  exact (abs_sign_mul_natCast_le n _).trans (by exact_mod_cast hround)

/-! ### The stages -/

theorem abs_toInt_le_s16 (v : BitVec 16) : |v.toInt| ≤ 32768 := by
  have hlow := BitVec.le_toInt v
  have hhigh := BitVec.toInt_lt (x := v)
  exact abs_le.mpr ⟨by omega, by omega⟩

theorem abs_stageD_le (raw : BitVec 20) (t1 : BitVec 16) : |stageD raw t1| ≤ 1048575 := by
  have hraw := raw.isLt
  have ht1 := t1.isLt
  unfold stageD
  exact abs_le.mpr ⟨by omega, by omega⟩

theorem abs_stageP1_le {d : Int} (hd : |d| ≤ 1048575) (t2 : BitVec 16) : |stageP1 d t2| ≤ 34359705600 := by
  calc |stageP1 d t2| = |d| * |t2.toInt| := abs_mul ..
    _ ≤ 1048575 * 32768 := by gcongr; exact abs_toInt_le_s16 t2
    _ = 34359705600 := by norm_num

theorem abs_stageP2_le {d : Int} (hd : |d| ≤ 1048575) (t3 : BitVec 16) : |stageP2 d t3| ≤ 36028728299520000 := by
  calc |stageP2 d t3| = |d| * |d| * |t3.toInt| := by rw [stageP2, stageQ, abs_mul, abs_mul]
    _ ≤ 1048575 * 1048575 * 32768 := by gcongr; exact abs_toInt_le_s16 t3
    _ = 36028728299520000 := by norm_num

theorem abs_stageN_le {d : Int} (hd : |d| ≤ 1048575) (t2 t3 : BitVec 16) : |stageN d t2 t3| ≤ 72057490958745600 := by
  have hround : |r53 (stageP2 d t3)| ≤ (36028728299520000 : Nat) :=
    abs_r53_le 2 (by exact_mod_cast abs_stageP2_le hd t3) (by norm_num) (by norm_num)
  calc |stageN d t2 t3| ≤ |stageP1 d t2 * 2 ^ 20| + |r53 (stageP2 d t3)| := abs_add_le ..
    _ ≤ 34359705600 * 2 ^ 20 + 36028728299520000 := by
      rw [abs_mul]
      exact add_le_add (mul_le_mul_of_nonneg_right (abs_stageP1_le hd t2) (by norm_num)) hround
    _ = 72057490958745600 := by norm_num

theorem abs_stageS_le {d : Int} (hd : |d| ≤ 1048575) (t2 t3 : BitVec 16) : |stageS d t2 t3| ≤ 72057490958745600 :=
  abs_r53_le (b := 72057490958745600) 3 (abs_stageN_le hd t2 t3) (by norm_num) (by norm_num)

theorem abs_stageConv_le {S : Int} (hS : |S| ≤ 72057490958745600) : |stageConv S| ≤ 4194298 := by
  refine (abs_sign_mul_natCast_le S _).trans ?_
  rw [Int.abs_eq_natAbs] at hS
  rw [Nat.shiftRight_eq_div_pow]
  omega

/-- The tight bound of `FINE` (42_compensation.md R86), which its 32 bits hold. -/
theorem compFine_bounds (raw : BitVec 20) (c : Coeffs) :
    -4194298 ≤ (compFine raw c).toInt ∧ (compFine raw c).toInt ≤ 4194298 := by
  have hconv := abs_le.mp (abs_stageConv_le (abs_stageS_le (abs_stageD_le raw c.t1) c.t2 c.t3))
  rw [compFine, BitVec.toInt_ofInt_eq_self (by norm_num) (by norm_num; omega) (by norm_num; omega)]
  exact hconv

end Sys2Proof.Machine
end

section
/-!
SUPPORT. What a command leaves of each part of the state, said once for all commands: the parts that no success
writes, what every byte of the buffer reads as afterwards, and the result of a command begun with another `LAST`,
`ERR` and list of inputs (10_state.md R27).
-/
namespace Sys2Proof.Machine

/-! ### A fault or a success, told apart by `LAST` -/

/-- No success writes the parameters, the inputs or `ERR`, and each reports `OK` (10_state.md R23, 40_buffer.md R60). -/
theorem Succeeds.frame {i : Instr} {s t : State} (h : Succeeds i s t) :
    t.params = s.params ∧ t.inputs = s.inputs ∧ t.err = s.err ∧ t.last = .ok := by
  cases i with
  | nop | closeSession => subst h; exact ⟨rfl, rfl, rfl, rfl⟩
  | openSession | rxclr => obtain ⟨-, rfl⟩ := h; exact ⟨rfl, rfl, rfl, rfl⟩
  | rxb off imm8 => obtain ⟨-, -, rfl⟩ := h; exact ⟨rfl, rfl, rfl, rfl⟩
  | ldcal off => obtain ⟨-, -, b, -, -, rfl⟩ := h; exact ⟨rfl, rfl, rfl, rfl⟩
  | asmT off | asmP off | asmH off => obtain ⟨-, -, b, -, rfl⟩ := h; exact ⟨rfl, rfl, rfl, rfl⟩
  | compT => obtain ⟨c, raw, -, -, rfl⟩ := h; exact ⟨rfl, rfl, rfl, rfl⟩
  | compP | compH => obtain ⟨c, raw, f, -, -, -, -, rfl⟩ := h; exact ⟨rfl, rfl, rfl, rfl⟩

theorem succeeds_of_last_ok {i : Instr} {s t : State} (h : exec i s = .next t) (hok : t.last = .ok) :
    Succeeds i s t := by
  obtain ⟨e, he, rfl⟩ | hs := exec_cases h
  · exact absurd hok he
  · exact hs

theorem raise_of_last_ne_ok {i : Instr} {s t : State} (h : exec i s = .next t) (hne : t.last ≠ .ok) :
    ∃ e, t = s.raise e := by
  obtain ⟨e, -, ht⟩ | hs := exec_cases h
  · exact ⟨e, ht⟩
  · obtain ⟨-, -, -, hok⟩ := hs.frame
    exact absurd hok hne

theorem exec_keeps_params_inputs {i : Instr} {s t : State} (h : exec i s = .next t) :
    t.params = s.params ∧ t.inputs = s.inputs := by
  obtain ⟨e, -, rfl⟩ | hs := exec_cases h
  · exact ⟨rfl, rfl⟩
  · obtain ⟨hparams, hinputs, -, -⟩ := hs.frame
    exact ⟨hparams, hinputs⟩

theorem exec_keeps_err {i : Instr} {s t : State} (h : exec i s = .next t) (herr : s.err = true) : t.err = true := by
  obtain ⟨e, -, rfl⟩ | hs := exec_cases h
  · rfl
  · obtain ⟨-, -, hkeep, -⟩ := hs.frame
    exact hkeep.trans herr

/-- Who writes `SESS`: `OPEN`, `CLOSE` and `LDCAL`, each from and to the session of its row (43_session.md R98). -/
theorem Succeeds.sess_cases {i : Instr} {s t : State} (h : Succeeds i s t) :
    t.sess = s.sess ∨ (i = .openSession ∧ s.sess = .closed ∧ t.sess = .configuring) ∨
    (i = .closeSession ∧ t.sess = .closed) ∨ ((∃ off, i = .ldcal off) ∧ s.sess = .configuring ∧ ∃ c, t.sess = .ready c) := by
  cases i with
  | nop => subst h; exact .inl rfl
  | openSession => obtain ⟨hc, rfl⟩ := h; exact .inr (.inl ⟨rfl, hc, rfl⟩)
  | closeSession => subst h; exact .inr (.inr (.inl ⟨rfl, rfl⟩))
  | rxb off imm8 => obtain ⟨-, -, rfl⟩ := h; exact .inl rfl
  | rxclr => obtain ⟨-, rfl⟩ := h; exact .inl rfl
  | ldcal off => obtain ⟨hc, -, b, -, -, rfl⟩ := h; exact .inr (.inr (.inr ⟨⟨off, rfl⟩, hc, _, rfl⟩))
  | asmT off | asmP off | asmH off => obtain ⟨-, -, b, -, rfl⟩ := h; exact .inl rfl
  | compT => obtain ⟨c, raw, -, -, rfl⟩ := h; exact .inl rfl
  | compP | compH => obtain ⟨c, raw, f, -, -, -, -, rfl⟩ := h; exact .inl rfl

/-! ### The bytes of the buffer -/

/-- What offset `a` reads as after the success of command `i` begun in `s` (20_memory.md R34 to R38). -/
def byteAfter (i : Instr) (s : State) (a : Nat) : Option Byte :=
  match i with
  | .rxb off imm8 => if a = off.toNat then some imm8 else byteAt s.buf a
  | .ldcal off => if off.toNat ≤ a ∧ a < off.toNat + s.params.calLen then none else byteAt s.buf a
  | .asmT off | .asmP off | .asmH off => if off.toNat ≤ a ∧ a < off.toNat + 3 then none else byteAt s.buf a
  | .rxclr | .closeSession => if a < s.params.bufSize then none else byteAt s.buf a
  | .nop | .openSession | .compT | .compP | .compH => byteAt s.buf a

theorem Succeeds.byteAt_eq {i : Instr} {s t : State} (h : Succeeds i s t) (a : Nat) :
    byteAt t.buf a = byteAfter i s a := by
  cases i with
  | nop => subst h; rfl
  | closeSession => subst h; simp [byteAfter, byteAt_dropBytes]
  | openSession => obtain ⟨-, rfl⟩ := h; rfl
  | rxclr => obtain ⟨-, rfl⟩ := h; simp [byteAfter, byteAt_dropBytes]
  | rxb off imm8 =>
    obtain ⟨-, -, rfl⟩ := h
    by_cases ha : a = off.toNat
    · simp [byteAfter, ha]
    · simp [byteAfter, ha, byteAt_putByte_ne]
  | ldcal off => obtain ⟨-, -, b, -, -, rfl⟩ := h; simp [byteAfter, byteAt_dropBytes]
  | asmT off | asmP off | asmH off => obtain ⟨-, -, b, -, rfl⟩ := h; simp [byteAfter, byteAt_dropBytes]
  | compT => obtain ⟨c, raw, -, -, rfl⟩ := h; rfl
  | compP | compH => obtain ⟨c, raw, f, -, -, -, -, rfl⟩ := h; rfl

/-- An offset that the command's success would leave reads as before, whether the command succeeds or not. -/
theorem exec_keeps_byteAt {i : Instr} {s t : State} {a : Nat} (h : exec i s = .next t)
    (ha : byteAfter i s a = byteAt s.buf a) : byteAt t.buf a = byteAt s.buf a := by
  obtain ⟨e, -, rfl⟩ | hs := exec_cases h
  · rfl
  · exact (hs.byteAt_eq a).trans ha

/-! ### `LAST`, `ERR` and the inputs still to come are not read -/

/-- The state with another `LAST`, `ERR` and list of inputs. -/
def State.relabel (s : State) (l : StatusCode) (e : Bool) (ins : List HostInput) : State :=
  { s with last := l, err := e, inputs := ins }

theorem assemble_relabel (s : State) (l : StatusCode) (e : Bool) (ins : List HostInput) (off : Byte) :
    (s.relabel l e ins).assemble off = (fun p => (p.1, p.2.relabel l e ins)) <$> s.assemble off := by
  simp only [State.assemble, map_bind, map_pure]
  rfl

/-- Each command is the end of a computation that neither reads nor writes `LAST`, `ERR` and the inputs. -/
theorem exec_relabel (i : Instr) (s : State) : ∃ r, exec i s = s.finish r ∧
    ∀ l e ins, exec i (s.relabel l e ins) = (s.relabel l e ins).finish ((State.relabel · l e ins) <$> r) := by
  cases i with
  | nop => exact ⟨.ok s, rfl, fun l e ins => rfl⟩
  | closeSession => exact ⟨.ok s.forgetSession, rfl, fun l e ins => rfl⟩
  | openSession | rxclr | ldcal off | compT | compP | compH =>
    refine ⟨_, rfl, fun l e ins => ?_⟩
    simp only [map_bind, map_pure]
    rfl
  | rxb off imm8 =>
    refine ⟨_, rfl, fun l e ins => ?_⟩
    simp only [map_bind, State.memWrite, apply_ite]
    rfl
  | asmT off | asmP off | asmH off =>
    refine ⟨_, rfl, fun l e ins => ?_⟩
    simp only [exec, execAsmT, execAsmP, execAsmH, map_bind, map_pure, assemble_relabel, bind_map_left]
    rfl

end Sys2Proof.Machine
end

section
/-!
SUPPORT. The state's statements (10_state.md): the invariant of R25 and the currency of the results (R17), kept by
one rule per update of the state that a command makes, and the frames of R27.
-/
namespace Sys2Proof.Machine

/-! ### The status word and the flags (R16, R19) -/

theorem statusWord_flags (s : State) :
    s.statusWord.getLsbD 2 = s.rvT ∧ s.statusWord.getLsbD 3 = s.rvP ∧ s.statusWord.getLsbD 4 = s.rvH ∧
    s.statusWord.getLsbD 5 = s.fv ∧ s.statusWord.getLsbD 6 = s.ovT ∧ s.statusWord.getLsbD 7 = s.ovP ∧
    s.statusWord.getLsbD 8 = s.ovH ∧ s.statusWord.getLsbD 16 = s.err := by
  simp only [State.statusWord, BitVec.getLsbD_append]
  simp

theorem statusWord_sess (s : State) : s.statusWord.extractLsb' 0 2 = s.sess.code :=
  BitVec.extractLsb'_append_eq_right

theorem statusWord_last (s : State) : s.statusWord.extractLsb' 12 4 = s.last.code := by
  iterate 9 refine (BitVec.extractLsb'_append_eq_of_le (by norm_num)).trans ?_
  exact BitVec.extractLsb'_append_eq_right

/-- (I-i) of every state. -/
theorem statusWord_reservedBits (s : State) :
    s.statusWord.extractLsb' 9 3 = 0 ∧ s.statusWord.extractLsb' 17 15 = 0 := by
  constructor
  · iterate 8 refine (BitVec.extractLsb'_append_eq_of_le (by norm_num)).trans ?_
    exact BitVec.extractLsb'_append_eq_right
  · iterate 11 refine (BitVec.extractLsb'_append_eq_of_le (by norm_num)).trans ?_
    exact BitVec.extractLsb'_eq_self

/-- Settles O37: each field is one of the parts that `STATUS` joins, and stands above the parts to its right. -/
theorem statusWordFields : Obligations.StatusWordFields := by
  unfold Obligations.StatusWordFields
  intro s
  obtain ⟨hrvT, hrvP, hrvH, hfv, hovT, hovP, hovH, herr⟩ := statusWord_flags s
  obtain ⟨hlow, hhigh⟩ := statusWord_reservedBits s
  exact ⟨statusWord_sess s, hrvT, hrvP, hrvH, hfv, hovT, hovP, hovH, hlow, statusWord_last s, herr, hhigh⟩

/-- Settles O39: a flag that is 0 says that its register holds no value, which is what the port shows. -/
theorem portsShowTheRegisters : Obligations.PortsShowTheRegisters := by
  unfold Obligations.PortsShowTheRegisters
  intro s
  have hnone : ∀ {α : Type} {r : Option α}, r.isSome = false → r = none := fun h => by simpa using h
  exact ⟨rfl, rfl, rfl, rfl, rfl, rfl, rfl, rfl, hnone, hnone, hnone, hnone, hnone, hnone, hnone⟩

theorem noValidFlag_iff {s : State} : NoValidFlag s ↔ s.rawT = none ∧ s.rawP = none ∧ s.rawH = none ∧
    s.fine = none ∧ s.outT = none ∧ s.outP = none ∧ s.outH = none := by
  simp [NoValidFlag, State.rvT, State.rvP, State.rvH, State.fv, State.ovT, State.ovP, State.ovH]

theorem table_eq_some_iff {s : State} {c : Coeffs} : s.table = some c ↔ s.sess = .ready c := by
  cases h : s.sess <;> simp [State.table, h]

theorem isReady_of_ready {s : State} {c : Coeffs} (h : s.sess = .ready c) : IsReady s := by
  simp [IsReady, table_eq_some_iff.mpr h]

theorem not_isReady_iff {s : State} : ¬ IsReady s ↔ ∀ c, s.sess ≠ .ready c := by
  cases h : s.sess <;> simp [IsReady, State.table, h]

/-- (I-a) of every state: the fourth code cannot be written down. -/
theorem sess_code_cases (s : State) : s.sess.code = 0 ∨ s.sess.code = 1 ∨ s.sess.code = 2 := by
  cases s.sess <;> simp [Session.code]

/-- (I-b) of every state: the table stands in the Ready session. -/
theorem table_isSome_iff (s : State) : s.table.isSome = true ↔ s.sess.code = 2 := by
  cases h : s.sess <;> simp [State.table, h, Session.code]

/-! ### The invariant is kept by every update that a command makes (R25) -/

/-- A Closed state with an empty buffer and empty registers meets the invariant: reset and `CLOSE` leave one. -/
theorem stateInv_of_empty {s : State} (hparams : s.params.Valid) (hsess : s.sess = .closed) (hflags : NoValidFlag s)
    (hbuf : s.buf = []) (herr : s.err = false → s.last = .ok) : StateInv s where
  params := hparams
  bufWf := by simp [hbuf]
  bufRange := by simp [hbuf]
  coefxLength := by simp [hsess]
  sessCode := sess_code_cases s
  tableReady := table_isSome_iff s
  closedFlags := fun _ => hflags
  closedBuf := fun _ => hbuf
  flagsReady := fun _ => hflags
  ovT_eq_fv := by obtain ⟨-, -, -, hfv, hovT, -, -⟩ := hflags; rw [hovT, hfv]
  outputsNeedFine := by obtain ⟨-, -, -, -, -, hovP, hovH⟩ := hflags; simp [hovP, hovH]
  fineNeedsSample := by obtain ⟨-, -, -, hfv, -⟩ := hflags; simp [hfv]
  errLast := herr
  lastErr := fun hlast => by_contra fun h => hlast (herr (by simpa using h))
  reservedBits := statusWord_reservedBits s
  noPressure := by obtain ⟨-, -, -, -, -, hovP, -⟩ := hflags; exact fun _ => hovP
  noHumidity := by obtain ⟨-, -, -, -, -, -, hovH⟩ := hflags; exact fun _ => hovH
  fineBound := by obtain ⟨-, -, -, hfine, -⟩ := noValidFlag_iff.mp hflags; simp [hfine]

theorem StateInv.setInputs {s : State} (h : StateInv s) (ins : List HostInput) : StateInv { s with inputs := ins } :=
  { h with }

theorem StateInv.raise {s : State} (h : StateInv s) (e : StatusCode) : StateInv (s.raise e) :=
  { h with
    errLast := fun herr => absurd herr (by simp)
    lastErr := fun _ => rfl
    reservedBits := statusWord_reservedBits _ }

theorem StateInv.complete {s : State} (h : StateInv s) : StateInv s.complete :=
  { h with
    errLast := fun _ => rfl
    lastErr := fun hlast => absurd rfl hlast
    reservedBits := statusWord_reservedBits _ }

theorem StateInv.setBuf {s : State} (h : StateInv s) {m : List Host.Cell} (hsess : s.sess ≠ .closed)
    (hwf : Memory.wf m) (hrange : ∀ c ∈ m, c.1 < s.params.bufSize) : StateInv { s with buf := m } :=
  { h with
    bufWf := hwf
    bufRange := hrange
    closedBuf := fun hclosed => absurd hclosed hsess }

theorem StateInv.putByte {s : State} (h : StateInv s) {a : Nat} (v : Byte) (hsess : s.sess ≠ .closed)
    (ha : a + 1 ≤ s.params.bufSize) : StateInv { s with buf := putByte s.buf a v } := by
  refine h.setBuf hsess (Memory.wf_putByte h.bufWf a v) fun c hc => ?_
  obtain rfl | hc := mem_putByte hc
  · exact ha
  · exact h.bufRange c hc

theorem StateInv.memInvalidate {s : State} (h : StateInv s) (a n : Nat) (hsess : s.sess ≠ .closed) :
    StateInv (s.memInvalidate a n) :=
  h.setBuf hsess (Memory.wf_dropBytes h.bufWf a n) fun c hc => h.bufRange c (mem_dropBytes.mp hc).1

theorem StateInv.forgetSession {s : State} (h : StateInv s) : StateInv s.forgetSession :=
  stateInv_of_empty h.params rfl (noValidFlag_iff.mpr ⟨rfl, rfl, rfl, rfl, rfl, rfl, rfl⟩)
    (dropBytes_all h.bufRange) h.errLast

/-- Outside Ready every flag is 0 (I-d), so a session that begins or becomes Ready begins with no flag. -/
theorem StateInv.setSess {s : State} (h : StateInv s) {x : Session} (hold : ∀ c, s.sess ≠ .ready c)
    (hopen : x ≠ .closed) (hcoefx : ∀ c, x = .ready c → c.coefx.length = s.params.calLen - 6) :
    StateInv { s with sess := x } :=
  { h with
    coefxLength := hcoefx
    sessCode := sess_code_cases _
    tableReady := table_isSome_iff _
    closedFlags := fun hclosed => absurd hclosed hopen
    closedBuf := fun hclosed => absurd hclosed hopen
    flagsReady := fun _ => h.flagsReady (not_isReady_iff.mpr hold)
    reservedBits := statusWord_reservedBits _ }

/-- In Ready the invariant leaves the raw registers, `FINE` and the outputs free but for the clauses that relate them. -/
theorem StateInv.setRegisters {s : State} {c : Coeffs} (h : StateInv s) (hc : s.sess = .ready c)
    {rawT rawP rawH : Option (BitVec 20)} {fine : Option (BitVec 32)} {outT outP outH : Option (BitVec 64)}
    (houtT : outT.isSome = fine.isSome) (houtputs : outP.isSome = true ∨ outH.isSome = true → fine.isSome = true)
    (hsample : fine.isSome = true → rawT.isSome = true)
    (hnoP : s.params.hasP = false → outP.isSome = false) (hnoH : s.params.hasH = false → outH.isSome = false)
    (hbound : ∀ f, fine = some f → -4194298 ≤ f.toInt ∧ f.toInt ≤ 4194298) :
    StateInv { s with
      rawT := rawT, rawP := rawP, rawH := rawH, fine := fine, outT := outT, outP := outP, outH := outH } :=
  { h with
    closedFlags := fun hclosed => absurd (hc.symm.trans hclosed) (by simp)
    flagsReady := fun hnot => absurd (isReady_of_ready hc) hnot
    ovT_eq_fv := houtT
    outputsNeedFine := houtputs
    fineNeedsSample := hsample
    reservedBits := statusWord_reservedBits _
    noPressure := hnoP
    noHumidity := hnoH
    fineBound := hbound }

section Ready
variable {s : State} {c : Coeffs} (h : StateInv s) (hc : s.sess = .ready c)
include h hc

theorem StateInv.sampleT (raw : BitVec 20) : StateInv { s.newCycle with rawT := some raw } :=
  h.setRegisters hc rfl (by simp) (by simp) (fun _ => rfl) (fun _ => rfl) (by simp)

theorem StateInv.sampleP (raw : BitVec 20) : StateInv { s with rawP := some raw } :=
  h.setRegisters hc h.ovT_eq_fv h.outputsNeedFine h.fineNeedsSample h.noPressure h.noHumidity h.fineBound

theorem StateInv.sampleH (raw : BitVec 20) : StateInv { s with rawH := some raw } :=
  h.setRegisters hc h.ovT_eq_fv h.outputsNeedFine h.fineNeedsSample h.noPressure h.noHumidity h.fineBound

theorem StateInv.results {raw : BitVec 20} (hraw : s.rawT = some raw) :
    StateInv { s with fine := some (compFine raw c), outT := some (compOut raw c) } := by
  refine h.setRegisters hc rfl (fun _ => rfl) (by simp [hraw]) h.noPressure h.noHumidity ?_
  rintro _ ⟨⟩
  exact compFine_bounds raw c

theorem StateInv.pressure (v : BitVec 64) {f : BitVec 32} (hhas : s.params.hasP = true) (hf : s.fine = some f) :
    StateInv { s with outP := some v } :=
  h.setRegisters hc h.ovT_eq_fv (by simp [hf]) h.fineNeedsSample (by simp [hhas]) h.noHumidity h.fineBound

theorem StateInv.humidity (v : BitVec 64) {f : BitVec 32} (hhas : s.params.hasH = true) (hf : s.fine = some f) :
    StateInv { s with outH := some v } :=
  h.setRegisters hc h.ovT_eq_fv (by simp [hf]) h.fineNeedsSample h.noPressure (by simp [hhas]) h.fineBound

end Ready

theorem Succeeds.keeps_stateInv {i : Instr} {s t : State} (hs : Succeeds i s t) (h : StateInv s) : StateInv t := by
  cases i with
  | nop => subst hs; exact h.complete
  | openSession =>
    obtain ⟨hc, rfl⟩ := hs
    exact (h.setSess (by simp [hc]) (by simp) (by simp)).complete
  | closeSession => subst hs; exact h.forgetSession.complete
  | rxb off imm8 => obtain ⟨hc, hfit, rfl⟩ := hs; exact (h.putByte imm8 hc hfit).complete
  | rxclr => obtain ⟨hc, rfl⟩ := hs; exact (h.memInvalidate _ _ hc).complete
  | ldcal off =>
    obtain ⟨hc, -, b, hlen, -, rfl⟩ := hs
    refine ((h.memInvalidate _ _ (by simp [hc])).setSess (by simp [hc]) (by simp) ?_).complete
    rintro _ ⟨⟩
    simp [decodeTable, hlen]
  | asmT off =>
    obtain ⟨⟨c, hc⟩, -, b, -, rfl⟩ := hs
    exact ((h.memInvalidate _ _ (by simp [hc])).sampleT hc _).complete
  | asmP off =>
    obtain ⟨⟨c, hc⟩, -, b, -, rfl⟩ := hs
    exact ((h.memInvalidate _ _ (by simp [hc])).sampleP hc _).complete
  | asmH off =>
    obtain ⟨⟨c, hc⟩, -, b, -, rfl⟩ := hs
    exact ((h.memInvalidate _ _ (by simp [hc])).sampleH hc _).complete
  | compT => obtain ⟨c, raw, hc, hraw, rfl⟩ := hs; exact (h.results hc hraw).complete
  | compP => obtain ⟨c, raw, f, hc, hhas, -, hf, rfl⟩ := hs; exact (h.pressure hc _ hhas hf).complete
  | compH => obtain ⟨c, raw, f, hc, hhas, -, hf, rfl⟩ := hs; exact (h.humidity hc _ hhas hf).complete

theorem stateInv_applyReset {s : State} (hparams : s.params.Valid) : StateInv s.applyReset :=
  stateInv_of_empty hparams rfl (noValidFlag_iff.mpr ⟨rfl, rfl, rfl, rfl, rfl, rfl, rfl⟩) rfl fun _ => rfl

theorem params_default_valid : Params.default.Valid := ⟨by decide, by decide, by decide⟩

/-- Settles O47: the state is Closed and empty. -/
theorem resetMeetsTheInvariant : Obligations.ResetMeetsTheInvariant := by
  unfold Obligations.ResetMeetsTheInvariant
  exact ⟨stateInv_applyReset (s := State.reset) params_default_valid, fun _ => stateInv_applyReset⟩

/-- Settles O48: a fault, a success of each command, a reset and waiting keep the invariant. -/
theorem stepKeepsStateInv : Obligations.StepKeepsStateInv := by
  unfold Obligations.StepKeepsStateInv
  intro s t h hstep
  obtain ⟨-, rfl⟩ | ⟨rest, -, rfl⟩ | ⟨w, rest, k, -, -, rfl⟩ | ⟨w, rest, i, -, -, hexec⟩ := step_cases hstep
  · exact h
  · exact stateInv_applyReset h.params
  · exact (h.setInputs rest).raise _
  · obtain ⟨e, -, rfl⟩ | hs := exec_cases hexec
    · exact (h.setInputs rest).raise e
    · exact hs.keeps_stateInv (h.setInputs rest)

/-! ### Valid results belong to the sample and the table now held (R17) -/

/-- No results are valid, so none is out of date. -/
theorem resultsCurrent_of_fine_eq_none {s : State} (h : s.fine = none) : ResultsCurrent s := by
  simp [ResultsCurrent, h]

/-- Results that are current need a table, so outside Ready there are none. -/
theorem ResultsCurrent.fine_eq_none {s : State} (h : ResultsCurrent s) (hs : ∀ c, s.sess ≠ .ready c) :
    s.fine = none := by
  refine Option.eq_none_iff_forall_not_mem.mpr fun f hf => ?_
  obtain ⟨raw, c, -, hc, -⟩ := h f hf
  exact hs c hc

theorem Succeeds.keeps_resultsCurrent {i : Instr} {s t : State} (hs : Succeeds i s t) (h : ResultsCurrent s) :
    ResultsCurrent t := by
  cases i with
  | nop => subst hs; exact h
  | openSession => obtain ⟨hc, rfl⟩ := hs; exact resultsCurrent_of_fine_eq_none (h.fine_eq_none (by simp [hc]))
  | closeSession => subst hs; exact resultsCurrent_of_fine_eq_none rfl
  | rxb off imm8 => obtain ⟨-, -, rfl⟩ := hs; exact h
  | rxclr => obtain ⟨-, rfl⟩ := hs; exact h
  | ldcal off =>
    obtain ⟨hc, -, b, -, -, rfl⟩ := hs
    exact resultsCurrent_of_fine_eq_none (h.fine_eq_none (by simp [hc]))
  | asmT off => obtain ⟨-, -, b, -, rfl⟩ := hs; exact resultsCurrent_of_fine_eq_none rfl
  | asmP off | asmH off => obtain ⟨-, -, b, -, rfl⟩ := hs; exact h
  | compT =>
    obtain ⟨c, raw, hc, hraw, rfl⟩ := hs
    exact fun f hf => ⟨raw, c, hraw, hc, (Option.some.inj hf).symm, rfl⟩
  | compP | compH => obtain ⟨c, raw, f, -, -, -, -, rfl⟩ := hs; exact h

/-- Settles O49: `COMPT` makes the results current, and whatever changes the sample or the table leaves no results. -/
theorem stepKeepsResultsCurrent : Obligations.StepKeepsResultsCurrent := by
  unfold Obligations.StepKeepsResultsCurrent
  refine ⟨resultsCurrent_of_fine_eq_none rfl, fun s t h hstep => ?_⟩
  obtain ⟨-, rfl⟩ | ⟨rest, -, rfl⟩ | ⟨w, rest, k, -, -, rfl⟩ | ⟨w, rest, i, -, -, hexec⟩ := step_cases hstep
  · exact h
  · exact resultsCurrent_of_fine_eq_none rfl
  · exact h
  · obtain ⟨e, -, rfl⟩ | hs := exec_cases hexec
    · exact h
    · exact hs.keeps_resultsCurrent h

/-! ### Steps: `ERR`, the parameters and the inputs -/

/-- Settles O8: waiting and an illegal word leave `ERR = 1`, and no command clears it. -/
theorem onlyResetClearsErr : Obligations.OnlyResetClearsErr := by
  unfold Obligations.OnlyResetClearsErr
  intro s t herr hstep
  obtain ⟨-, rfl⟩ | ⟨rest, hreset, -⟩ | ⟨w, rest, k, -, -, rfl⟩ | ⟨w, rest, i, -, -, hexec⟩ := step_cases hstep
  · exact .inl herr
  · exact .inr ⟨rest, hreset⟩
  · exact .inl rfl
  · exact .inl (exec_keeps_err hexec herr)

/-- Settles O10: only the taking of the input writes either field. -/
theorem stepKeepsParamsAndTakesOneInput : Obligations.StepKeepsParamsAndTakesOneInput := by
  unfold Obligations.StepKeepsParamsAndTakesOneInput
  intro s t hstep
  obtain ⟨hin, rfl⟩ | ⟨rest, hin, rfl⟩ | ⟨w, rest, k, hin, -, rfl⟩ | ⟨w, rest, i, hin, -, hexec⟩ := step_cases hstep
  · simp [hin]
  · simp [hin]
  · simp [hin]
  · simpa [hin] using exec_keeps_params_inputs hexec

/-- Settles O5, by the model's rule for a step that takes a command. -/
theorem stepRunsTheDecodedCommand : Obligations.StepRunsTheDecodedCommand := by
  unfold Obligations.StepRunsTheDecodedCommand
  exact fun s w rest i hin hdecode => step_command hin hdecode

theorem noValidFlag_applyReset (s : State) : NoValidFlag s.applyReset :=
  noValidFlag_iff.mpr ⟨rfl, rfl, rfl, rfl, rfl, rfl, rfl⟩

/-- The status word reads neither the parameters nor the inputs. -/
theorem statusWord_applyReset (s : State) : s.applyReset.statusWord = 0 := by
  change State.reset.statusWord = 0
  decide

/-- Settles O7: field by field, the state that `RESET` leaves is the empty one. -/
theorem resetLeavesTheResetState : Obligations.ResetLeavesTheResetState := by
  unfold Obligations.ResetLeavesTheResetState
  constructor
  · intro s rest hin
    exact ⟨_, step_reset hin, rfl, rfl, rfl, noValidFlag_applyReset _, fun _ => rfl, rfl, rfl, statusWord_applyReset _,
      rfl, rfl, rfl, rfl, rfl, rfl, rfl, rfl, fun _ => rfl⟩
  · exact ⟨rfl, noValidFlag_applyReset State.reset, statusWord_applyReset State.reset, rfl, rfl, rfl, fun _ => rfl⟩

/-! ### Commands: what they do not read, the table and the flags -/

/-- Settles O13: both runs end the same computation. Its fault, if any, is not `OK`: begun with `ERR = 0` the command
would end in `LAST = OK` and `ERR = 1`, which no command does. -/
theorem commandsDoNotReadLastErrOrInputs : Obligations.CommandsDoNotReadLastErrOrInputs := by
  unfold Obligations.CommandsDoNotReadLastErrOrInputs
  intro i s t l e ins h
  obtain ⟨r, hr, hrelabel⟩ := exec_relabel i s
  refine (hrelabel l e ins).trans ?_
  obtain ⟨x, rfl, rfl⟩ | ⟨u, rfl, rfl⟩ := finish_cases (hr.symm.trans h)
  · have hx : x ≠ .ok := by
      intro hok
      obtain ⟨-, -, herr, -⟩ := (succeeds_of_last_ok (hrelabel l false ins) hok).frame
      exact absurd herr (by simp [State.relabel])
    simp only [State.raise_last, hx, if_false]
    rfl
  · simp only [State.complete_last, if_true]
    rfl

/-- Settles O18: the table stands in `SESS`, and the commands that write `SESS` beside `CLOSE` succeed outside Ready
only. -/
theorem tableIsImmutableInASession : Obligations.TableIsImmutableInASession := by
  unfold Obligations.TableIsImmutableInASession
  constructor
  · intro i s t c htable h hclose
    rw [table_eq_some_iff] at htable ⊢
    obtain ⟨e, -, rfl⟩ | hs := exec_cases h
    · exact htable
    · obtain hsame | ⟨-, hold, -⟩ | ⟨hi, -⟩ | ⟨-, hold, -⟩ := hs.sess_cases
      · exact hsame.trans htable
      · simp [hold] at htable
      · exact absurd hi hclose
      · simp [hold] at htable
  · intro i s t htable h hloaded
    obtain ⟨c, hc⟩ := Option.ne_none_iff_exists'.mp hloaded
    rw [table_eq_some_iff] at hc
    have hnot : s.sess ≠ .ready c := fun hr => by simp [table_eq_some_iff.mpr hr] at htable
    obtain ⟨e, -, rfl⟩ | hs := exec_cases h
    · exact absurd hc hnot
    · obtain hsame | ⟨-, -, hnew⟩ | ⟨-, hnew⟩ | ⟨hi, -⟩ := hs.sess_cases
      · exact absurd (hsame.symm.trans hc) hnot
      · simp [hnew] at hc
      · simp [hnew] at hc
      · exact hi

theorem Succeeds.bv_eq {i : Instr} {s t : State} (h : Succeeds i s t) (a : Nat) :
    t.bv a = (byteAfter i s a).isSome :=
  congrArg Option.isSome (h.byteAt_eq a)

/-- Settles O38: the seven registers after each success, the bytes by `byteAfter`; a fault keeps every register and
byte, and reset leaves none. -/
theorem flagsFollowTheirEvents : Obligations.FlagsFollowTheirEvents := by
  unfold Obligations.FlagsFollowTheirEvents
  refine ⟨fun i s t h hok => ?_, fun i s t h hne => ?_, fun s rest t hin h => ?_, fun s => ?_⟩
  · have hs := succeeds_of_last_ok h hok
    have hbv := hs.bv_eq
    cases i with
    | nop => subst hs; exact ⟨rfl, rfl, rfl, rfl, rfl, rfl, rfl, fun a _ => hbv a⟩
    | openSession => obtain ⟨-, rfl⟩ := hs; exact ⟨rfl, rfl, rfl, rfl, rfl, rfl, rfl, fun a _ => hbv a⟩
    | closeSession =>
      subst hs
      exact ⟨rfl, rfl, rfl, rfl, rfl, rfl, rfl, fun a ha => by simp [hbv, byteAfter, ha]⟩
    | rxb off imm8 =>
      obtain ⟨-, -, rfl⟩ := hs
      exact ⟨rfl, rfl, rfl, rfl, rfl, rfl, rfl, fun a _ => (hbv a).trans (apply_ite ..)⟩
    | rxclr =>
      obtain ⟨-, rfl⟩ := hs
      exact ⟨rfl, rfl, rfl, rfl, rfl, rfl, rfl, fun a ha => by simp [hbv, byteAfter, ha]⟩
    | ldcal off =>
      obtain ⟨-, -, b, -, -, rfl⟩ := hs
      exact ⟨rfl, rfl, rfl, rfl, rfl, rfl, rfl, fun a _ => (hbv a).trans (apply_ite ..)⟩
    | asmT off | asmP off | asmH off =>
      obtain ⟨-, -, b, -, rfl⟩ := hs
      exact ⟨rfl, rfl, rfl, rfl, rfl, rfl, rfl, fun a _ => (hbv a).trans (apply_ite ..)⟩
    | compT =>
      obtain ⟨c, raw, -, -, rfl⟩ := hs
      exact ⟨rfl, rfl, rfl, rfl, rfl, rfl, rfl, fun a _ => hbv a⟩
    | compP | compH =>
      obtain ⟨c, raw, f, -, -, -, -, rfl⟩ := hs
      exact ⟨rfl, rfl, rfl, rfl, rfl, rfl, rfl, fun a _ => hbv a⟩
  · obtain ⟨e, rfl⟩ := raise_of_last_ne_ok h hne
    exact ⟨rfl, rfl, rfl, rfl, rfl, rfl, rfl, fun _ => rfl⟩
  · obtain rfl := Host.Outcome.next.inj ((step_reset hin).symm.trans h)
    exact ⟨noValidFlag_applyReset _, fun _ => rfl⟩
  · have hsome : ∀ {α : Type} {r : Option α}, r.isSome = true ↔ ∃ v, r = some v := Option.isSome_iff_exists
    exact ⟨hsome, hsome, hsome, hsome, hsome, hsome, hsome, fun _ => hsome⟩

/-! ### Frames (R27): each command writes what its own success writes, and a fault only `LAST` and `ERR` -/

/-- Settles O40: `OPEN` writes `SESS`, `NOP` nothing; neither writes a byte. -/
theorem frameOfNopAndOpen : Obligations.FrameOfNopAndOpen := by
  unfold Obligations.FrameOfNopAndOpen
  intro i s t hi h
  obtain rfl | rfl : i = .nop ∨ i = .openSession := by simpa using hi
  · obtain rfl : s.complete = t := Host.Outcome.next.inj h
    exact ⟨rfl, fun _ => ⟨rfl, rfl⟩, fun _ => rfl⟩
  · refine ⟨?_, fun hnop => absurd hnop (by simp), fun _ => exec_keeps_byteAt h rfl⟩
    obtain ⟨e, -, rfl⟩ | ⟨-, rfl⟩ := exec_cases h <;> rfl

/-- Settles O41: forgetting the session writes neither `ERR` nor the fields of the model's own. -/
theorem frameOfClose : Obligations.FrameOfClose := by
  unfold Obligations.FrameOfClose
  intro s t h
  obtain rfl : s.forgetSession.complete = t := Host.Outcome.next.inj h
  exact ⟨rfl, rfl, rfl, fun a ha => exec_keeps_byteAt h (if_neg (Nat.not_lt.mpr ha))⟩

/-- Settles O42: the one update is of the buffer, at the command's offset. -/
theorem frameOfRxb : Obligations.FrameOfRxb := by
  unfold Obligations.FrameOfRxb
  intro s t off imm8 h
  constructor
  · obtain ⟨e, -, rfl⟩ | ⟨-, -, rfl⟩ := exec_cases h <;> rfl
  · rintro _ rfl b hb
    exact exec_keeps_byteAt h (if_neg hb)

/-- Settles O43: the one update invalidates the offsets below `BUF_SIZE`. -/
theorem frameOfRxclr : Obligations.FrameOfRxclr := by
  unfold Obligations.FrameOfRxclr
  intro s t h
  constructor
  · obtain ⟨e, -, rfl⟩ | ⟨-, rfl⟩ := exec_cases h <;> rfl
  · exact fun b hb => exec_keeps_byteAt h (if_neg (Nat.not_lt.mpr hb))

theorem not_within_of_outside {a b n : Nat} (h : b < a ∨ a + n ≤ b) : ¬ (a ≤ b ∧ b < a + n) := by omega

/-- Settles O44: the updates are of `SESS` and of the `CAL_LEN` bytes read. -/
theorem frameOfLdcal : Obligations.FrameOfLdcal := by
  unfold Obligations.FrameOfLdcal
  intro s t off h
  constructor
  · obtain ⟨e, -, rfl⟩ | ⟨-, -, b, -, -, rfl⟩ := exec_cases h <;> rfl
  · rintro _ rfl b hb
    exact exec_keeps_byteAt h (if_neg (not_within_of_outside hb))

/-- Settles O45: each form writes its own raw register and the three bytes read; `ASM.T` alone begins a new cycle. -/
theorem frameOfAsm : Obligations.FrameOfAsm := by
  unfold Obligations.FrameOfAsm
  intro i s t off hi h
  replace hi : i = .asmT off ∨ i = .asmP off ∨ i = .asmH off := by simpa using hi
  have hbuf : ∀ a, offset off = a → ∀ b, b < a ∨ a + 3 ≤ b → byteAt t.buf b = byteAt s.buf b := by
    rintro _ rfl b hb
    refine exec_keeps_byteAt h ?_
    obtain rfl | rfl | rfl := hi <;> exact if_neg (not_within_of_outside hb)
  obtain ⟨e, -, rfl⟩ | hs := exec_cases h
  · exact ⟨rfl, rfl, rfl, fun _ => ⟨rfl, rfl, rfl, rfl, rfl⟩, fun _ => rfl, fun _ => rfl, hbuf⟩
  · obtain rfl | rfl | rfl := hi <;> obtain ⟨-, -, b, -, rfl⟩ := hs
    · exact ⟨rfl, rfl, rfl, fun hne => absurd rfl hne, fun _ => rfl, fun _ => rfl, hbuf⟩
    · exact ⟨rfl, rfl, rfl, fun _ => ⟨rfl, rfl, rfl, rfl, rfl⟩, fun hne => absurd rfl hne, fun _ => rfl, hbuf⟩
    · exact ⟨rfl, rfl, rfl, fun _ => ⟨rfl, rfl, rfl, rfl, rfl⟩, fun _ => rfl, fun hne => absurd rfl hne, hbuf⟩

/-- Settles O46: each of the three writes its results only, and no byte. -/
theorem frameOfCompensation : Obligations.FrameOfCompensation := by
  unfold Obligations.FrameOfCompensation
  intro i s t hi h
  replace hi : i = .compT ∨ i = .compP ∨ i = .compH := by simpa using hi
  have hbuf : ∀ a, byteAt t.buf a = byteAt s.buf a := fun a =>
    exec_keeps_byteAt h (by obtain rfl | rfl | rfl := hi <;> rfl)
  obtain ⟨e, -, rfl⟩ | hs := exec_cases h
  · exact ⟨rfl, fun _ => ⟨rfl, rfl⟩, fun _ => rfl, fun _ => rfl, hbuf⟩
  · obtain rfl | rfl | rfl := hi
    · obtain ⟨c, raw, -, -, rfl⟩ := hs
      exact ⟨rfl, fun hne => absurd rfl hne, fun _ => rfl, fun _ => rfl, hbuf⟩
    · obtain ⟨c, raw, f, -, -, -, -, rfl⟩ := hs
      exact ⟨rfl, fun _ => ⟨rfl, rfl⟩, fun hne => absurd rfl hne, fun _ => rfl, hbuf⟩
    · obtain ⟨c, raw, f, -, -, -, -, rfl⟩ := hs
      exact ⟨rfl, fun _ => ⟨rfl, rfl⟩, fun _ => rfl, fun hne => absurd rfl hne, hbuf⟩

end Sys2Proof.Machine
end

section
/-!
SUPPORT. What a repeated access finds (20_memory.md R38): a read consumes its bytes, so that the same read is stale; a
write of the same byte changes nothing.
-/
namespace Sys2Proof.Machine

/-! ### The three forms of `ASM` (41_decode.md R66) -/

/-- Each form of `ASM` raises the fault of the part they share. -/
theorem exec_asm_of_assemble_error {i : Instr} {s : State} {off : Byte} {e : StatusCode}
    (hi : i ∈ [Instr.asmT off, .asmP off, .asmH off]) (h : s.assemble off = .error e) :
    exec i s = .next (s.raise e) := by
  replace hi : i = .asmT off ∨ i = .asmP off ∨ i = .asmH off := by simpa using hi
  obtain rfl | rfl | rfl := hi
  · simp [exec, execAsmT, h, bind, Except.bind]
  · simp [exec, execAsmP, h, bind, Except.bind]
  · simp [exec, execAsmH, h, bind, Except.bind]

theorem assemble_stale {s : State} {off : Byte} {c : Coeffs} {k : Nat} (hc : s.sess = .ready c)
    (hfit : off.toNat + 3 ≤ s.params.bufSize) (hk : k < 3) (hb : s.bv (off.toNat + k) = false) :
    s.assemble off = .error .stale := by
  have hread : s.memRead (offset off) 3 = .error .stale := memRead_stale hfit hk hb
  simp [State.assemble, State.requireReady, hc, hread, bind, Except.bind]

/-- The success of `ASM` leaves the session Ready, its bytes within the buffer, and the first of them invalid. -/
theorem Succeeds.asm_consumes {i : Instr} {s t : State} {off : Byte}
    (hi : i ∈ [Instr.asmT off, .asmP off, .asmH off]) (hs : Succeeds i s t) :
    (∃ c, t.sess = .ready c) ∧ off.toNat + 3 ≤ t.params.bufSize ∧ t.bv off.toNat = false := by
  replace hi : i = .asmT off ∨ i = .asmP off ∨ i = .asmH off := by simpa using hi
  have hbv := hs.bv_eq off.toNat
  obtain rfl | rfl | rfl := hi <;> obtain ⟨hready, hfit, b, -, rfl⟩ := hs <;>
    exact ⟨hready, hfit, hbv.trans (by simp [byteAfter])⟩

/-! ### `RXB` (40_buffer.md R61) -/

/-- Of two writes to one offset the second remains, in every list of cells. -/
theorem putByte_putByte_same (m : List Host.Cell) (a : Nat) (v w : Byte) :
    putByte (putByte m a v) a w = putByte m a w := by
  induction m with
  | nil => simp [putByte]
  | cons c m ih =>
    obtain hlt | rfl | hgt := Nat.lt_trichotomy a c.1
    · simp [putByte, hlt]
    · simp [putByte]
    · simp [putByte, hgt.not_gt, hgt.ne', ih]

theorem exec_rxb_ok {s : State} {off : Byte} (imm8 : Byte) (hs : s.sess ≠ .closed)
    (hfit : off.toNat + 1 ≤ s.params.bufSize) :
    exec (.rxb off imm8) s = .next (State.complete { s with buf := putByte s.buf off.toNat imm8 }) := by
  have hwrite : s.memWrite (offset off) imm8 = .ok { s with buf := putByte s.buf off.toNat imm8 } :=
    memWrite_ok imm8 hfit
  obtain ⟨hclosed, -⟩ | ⟨-, hguard⟩ := requireSession_cases s
  · exact absurd hclosed hs
  · simp [exec, execRxb, hguard, hwrite, bind, Except.bind]

/-- Settles O25: `ASM` has consumed the bytes that its repetition asks for, and `RXB` writes again the byte that
stands there. -/
theorem readsConsumeAndRxbIsIdempotent : Obligations.ReadsConsumeAndRxbIsIdempotent := by
  unfold Obligations.ReadsConsumeAndRxbIsIdempotent
  constructor
  · intro s t off i hi h hok
    obtain ⟨⟨c, hc⟩, hfit, hbv⟩ := (succeeds_of_last_ok h hok).asm_consumes hi
    exact exec_asm_of_assemble_error hi (assemble_stale hc hfit (k := 0) (by decide) hbv)
  · intro s t off imm8 h hok
    obtain ⟨hsess, hfit, rfl⟩ := succeeds_of_last_ok h hok
    rw [exec_rxb_ok imm8 (by simpa using hsess) (by simpa using hfit)]
    rw [State.complete_buf, putByte_putByte_same]
    rfl

end Sys2Proof.Machine
end

section
/-!
SUPPORT. The opcode map as a partition of the legal words (30_encoding.md R49 to R51, R56): what it means to meet a row,
that no word meets two, and that a word is rebuilt from the row it meets and its two operand bytes.
-/
namespace Sys2Proof

/-! ### Words that agree under a mask -/

theorem and_eq_and_iff_getLsbD {n : Nat} {v w m : BitVec n} :
    w &&& m = v &&& m ↔ ∀ j, m.getLsbD j = true → w.getLsbD j = v.getLsbD j := by
  constructor
  · intro h j hj
    simpa [hj] using congrArg (·.getLsbD j) h
  · intro h
    refine BitVec.eq_of_getLsbD_eq fun j _ => ?_
    cases hj : m.getLsbD j with
    | false => simp [hj]
    | true => simp [hj, h j hj]

/-- To agree under two masks joined is to agree under each. -/
theorem and_or_eq_and_or_iff {n : Nat} {v w a b : BitVec n} :
    w &&& (a ||| b) = v &&& (a ||| b) ↔ w &&& a = v &&& a ∧ w &&& b = v &&& b := by
  simp only [and_eq_and_iff_getLsbD, BitVec.getLsbD_or, Bool.or_eq_true, or_imp, forall_and]

/-- Two words have a field equal exactly when they agree under the mask of that field's bits. -/
theorem extractLsb'_eq_iff {n : Nat} {v w m : BitVec n} {start len : Nat} (hlen : start + len ≤ n)
    (hm : ∀ j < n, (m.getLsbD j = true ↔ start ≤ j ∧ j < start + len)) :
    w.extractLsb' start len = v.extractLsb' start len ↔ w &&& m = v &&& m := by
  rw [and_eq_and_iff_getLsbD]
  constructor
  · intro h j hj
    obtain ⟨hle, hlt⟩ := (hm j (BitVec.lt_of_getLsbD hj)).1 hj
    have hbit := congrArg (·.getLsbD (j - start)) h
    simpa [show j - start < len by omega, Nat.add_sub_cancel' hle] using hbit
  · intro h
    refine BitVec.eq_of_getLsbD_eq fun k hk => ?_
    simpa [hk] using h (start + k) ((hm _ (by omega)).2 (by omega))

theorem opField_eq_iff {v w : Word} : opField w = opField v ↔ w &&& 0xF0000000 = v &&& 0xF0000000 :=
  extractLsb'_eq_iff (by decide) (by decide)

theorem qField_eq_iff {v w : Word} : qField w = qField v ↔ w &&& 0x03000000 = v &&& 0x03000000 :=
  extractLsb'_eq_iff (by decide) (by decide)

/-! ### Meeting a row -/

/-- The mask of a row has the bits of `op`, those of `q` where `op = 0x7`, and the must-be-zero bits of the format. -/
theorem row_mask_eq {r : OpcodeRow} (hr : r ∈ opcodeMap) :
    r.mask = 0xF0000000 |||
      ((if opField r.pattern = 0x7 then 0x03000000 else 0#32) ||| mustBeZeroMask (opField r.pattern)) := by
  revert r; decide

/-- R47 and R49 in fields: a word meets a row when it has the row's `op`, the row's quantity if it is `0x7`, and no
must-be-zero bit set. -/
theorem meets_row_iff {r : OpcodeRow} (hr : r ∈ opcodeMap) (w : Word) :
    w &&& r.mask = r.pattern ↔ opField w = opField r.pattern ∧
      (opField r.pattern = 0x7 → qField w = qField r.pattern) ∧ w &&& mustBeZeroMask (opField r.pattern) = 0 := by
  have hpattern : r.pattern = r.pattern &&& r.mask := by revert r; decide
  have hzero : r.pattern &&& mustBeZeroMask (opField r.pattern) = 0 := by revert r; decide
  calc w &&& r.mask = r.pattern
      ↔ w &&& r.mask = r.pattern &&& r.mask := by rw [← hpattern]
    _ ↔ _ := by
      rw [row_mask_eq hr, and_or_eq_and_or_iff, and_or_eq_and_or_iff, hzero, opField_eq_iff]
      by_cases hop : opField r.pattern = 0x7
      · rw [if_pos hop, qField_eq_iff, forall_prop_of_true hop]
      · rw [if_neg hop, forall_prop_of_false hop, BitVec.and_zero, BitVec.and_zero, eq_self_iff_true]

/-- Two rows that agree on the bits both of them fix are the same row, so no word meets two. -/
theorem row_unique {w : Word} {r r' : OpcodeRow} (hr : r ∈ opcodeMap) (hr' : r' ∈ opcodeMap)
    (h : w &&& r.mask = r.pattern) (h' : w &&& r'.mask = r'.pattern) : r = r' := by
  have hdisjoint : ∀ r ∈ opcodeMap, ∀ r' ∈ opcodeMap, r.pattern &&& r'.mask = r'.pattern &&& r.mask → r = r' := by
    decide
  refine hdisjoint r hr r' hr' ?_
  rw [← h, ← h', BitVec.and_assoc, BitVec.and_assoc, BitVec.and_comm r.mask]

/-! ### The decoder -/

/-- The decoder's search finds the row that the word meets: there is at most one. -/
theorem find_row_eq_some_iff {w : Word} {r : OpcodeRow} :
    opcodeMap.find? (fun r => w &&& r.mask = r.pattern) = some r ↔ r ∈ opcodeMap ∧ w &&& r.mask = r.pattern := by
  constructor
  · intro hfind
    exact ⟨List.mem_of_find?_eq_some hfind, by simpa using List.find?_some hfind⟩
  · rintro ⟨hr, hmeets⟩
    cases hfind : opcodeMap.find? (fun r => w &&& r.mask = r.pattern) with
    | none => exact absurd (decide_eq_true hmeets) (List.find?_eq_none.1 hfind r hr)
    | some r' =>
      have hmeets' : w &&& r'.mask = r'.pattern := by simpa using List.find?_some hfind
      rw [row_unique (List.mem_of_find?_eq_some hfind) hr hmeets' hmeets]

theorem decode_eq_ok_iff {w : Word} {i : Instr} : decode w = .ok i ↔
    ∃ r ∈ opcodeMap, w &&& r.mask = r.pattern ∧ i = withOperands r.command (offField w) (immField w) := by
  simp only [← and_assoc, ← find_row_eq_some_iff]
  unfold decode
  cases opcodeMap.find? (fun r => w &&& r.mask = r.pattern) with
  | none => simp
  | some r => simp [eq_comm]

theorem decode_eq_error_iff {w : Word} :
    (∃ k, decode w = .error k) ↔ ¬ ∃ r ∈ opcodeMap, w &&& r.mask = r.pattern := by
  constructor
  · rintro ⟨k, hk⟩ ⟨r, hr, hmeets⟩
    have hok := decode_eq_ok_iff.2 ⟨r, hr, hmeets, rfl⟩
    cases hk.symm.trans hok
  · intro hnone
    cases hd : decode w with
    | error k => exact ⟨k, rfl⟩
    | ok i =>
      obtain ⟨r, hr, hmeets, -⟩ := decode_eq_ok_iff.1 hd
      exact absurd ⟨r, hr, hmeets⟩ hnone

/-! ### Rebuilding a word from its row and its operand bytes -/

/-- The low half of a word is its two operand bytes (R46). -/
theorem and_lowHalf_eq_packFields (w : Word) : w &&& 0x0000FFFF = packFields 0 0 (offField w) (immField w) := by
  refine BitVec.eq_of_getLsbD_eq fun j hj => ?_
  simp only [packFields, offField, immField, BitVec.getLsbD_and, BitVec.getLsbD_append, BitVec.getLsbD_extractLsb']
  interval_cases j <;> simp

theorem packFields_noOperand (op : BitVec 4) (q : BitVec 2) (off imm8 : Byte) :
    packFields op q 0 0 = packFields op q 0 0 ||| (packFields 0 0 off imm8 &&& 0) := by
  simp

theorem packFields_offOperand (op : BitVec 4) (q : BitVec 2) (off imm8 : Byte) :
    packFields op q off 0 = packFields op q 0 0 ||| (packFields 0 0 off imm8 &&& 0x0000FF00) := by
  refine BitVec.eq_of_getLsbD_eq fun j hj => ?_
  simp only [packFields, BitVec.getLsbD_or, BitVec.getLsbD_and, BitVec.getLsbD_append]
  interval_cases j <;> simp

theorem packFields_byteOperands (op : BitVec 4) (q : BitVec 2) (off imm8 : Byte) :
    packFields op q off imm8 = packFields op q 0 0 ||| (packFields 0 0 off imm8 &&& 0x0000FFFF) := by
  refine BitVec.eq_of_getLsbD_eq fun j hj => ?_
  simp only [packFields, BitVec.getLsbD_or, BitVec.getLsbD_and, BitVec.getLsbD_append]
  interval_cases j <;> simp

/-- The word of a row's command: the row's fixed bits, and the operand bytes in the bits that its mask does not fix. -/
theorem encode_withOperands {r : OpcodeRow} (hr : r ∈ opcodeMap) (off imm8 : Byte) :
    encode (withOperands r.command off imm8) = r.pattern ||| (packFields 0 0 off imm8 &&& ~~~r.mask) := by
  simp only [opcodeMap, List.mem_cons, List.not_mem_nil, or_false] at hr
  obtain rfl | rfl | rfl | rfl | rfl | rfl | rfl | rfl | rfl | rfl | rfl | rfl := hr
  · exact packFields_noOperand 0x1 0 off imm8
  · exact packFields_noOperand 0x2 0 off imm8
  · exact packFields_noOperand 0x3 0 off imm8
  · exact packFields_byteOperands 0x4 0 off imm8
  · exact packFields_noOperand 0x5 0 off imm8
  · exact packFields_offOperand 0x6 0 off imm8
  · exact packFields_offOperand 0x7 0 off imm8
  · exact packFields_offOperand 0x7 1 off imm8
  · exact packFields_offOperand 0x7 2 off imm8
  · exact packFields_noOperand 0x8 0 off imm8
  · exact packFields_noOperand 0x9 0 off imm8
  · exact packFields_noOperand 0xA 0 off imm8

theorem encode_withOperands_of_meets {r : OpcodeRow} {w : Word} (hr : r ∈ opcodeMap) (h : w &&& r.mask = r.pattern) :
    encode (withOperands r.command (offField w) (immField w)) = w := by
  have hlow : ∀ r ∈ opcodeMap, 0x0000FFFF &&& ~~~r.mask = ~~~r.mask := by decide
  calc encode (withOperands r.command (offField w) (immField w))
      = w &&& r.mask ||| (w &&& 0x0000FFFF &&& ~~~r.mask) := by
        rw [encode_withOperands hr, h, and_lowHalf_eq_packFields]
    _ = w &&& (r.mask ||| ~~~r.mask) := by rw [BitVec.and_assoc, hlow r hr, BitVec.and_or_distrib_left]
    _ = w := by rw [BitVec.or_not_self, BitVec.and_allOnes]

/-- The word of every command meets that command's row (the lemmas per command in one). -/
theorem encode_meets_row : ∀ i, Laws.MeetsItsRow.Statement i
  | .nop => Laws.MeetsItsRow.nop
  | .openSession => Laws.MeetsItsRow.openSession
  | .closeSession => Laws.MeetsItsRow.closeSession
  | .rxb off imm8 => Laws.MeetsItsRow.rxb off imm8
  | .rxclr => Laws.MeetsItsRow.rxclr
  | .ldcal off => Laws.MeetsItsRow.ldcal off
  | .asmT off => Laws.MeetsItsRow.asmT off
  | .asmP off => Laws.MeetsItsRow.asmP off
  | .asmH off => Laws.MeetsItsRow.asmH off
  | .compT => Laws.MeetsItsRow.compT
  | .compP => Laws.MeetsItsRow.compP
  | .compH => Laws.MeetsItsRow.compH

theorem decode_encode (i : Instr) : decode (encode i) = .ok i := by
  obtain ⟨r, hr, hmeets, hi⟩ := encode_meets_row i
  exact decode_eq_ok_iff.2 ⟨r, hr, hmeets, hi.symm⟩

theorem encode_of_decode {w : Word} {i : Instr} (h : decode w = .ok i) : encode i = w := by
  obtain ⟨r, hr, hmeets, rfl⟩ := decode_eq_ok_iff.1 h
  exact encode_withOperands_of_meets hr hmeets

/-- Settles O1: a word that meets a row is the row's fixed bits and its own operand bytes, and the word of a command
meets that command's row. -/
theorem decodeInvertsEncode : Obligations.DecodeInvertsEncode := by
  unfold Obligations.DecodeInvertsEncode
  exact ⟨fun w i => encode_of_decode, decode_encode⟩

/-- Settles O3: the decoder finds the one row that a word can meet. -/
theorem decodeFollowsTheOpcodeMap : Obligations.DecodeFollowsTheOpcodeMap := by
  unfold Obligations.DecodeFollowsTheOpcodeMap
  exact ⟨fun w i => decode_eq_ok_iff, fun w r hr r' hr' => row_unique hr hr'⟩

/-! ### The illegal words (R51) -/

/-- The opcodes and quantities that name a command: one of the rows has them. -/
theorem exists_row_iff (op : BitVec 4) (q : BitVec 2) :
    (∃ r ∈ opcodeMap, op = opField r.pattern ∧ (opField r.pattern = 0x7 → q = qField r.pattern)) ↔
      ¬ ((op = 0xB ∨ op = 0xC ∨ op = 0xD ∨ op = 0xE) ∨ (op = 0x0 ∨ op = 0xF) ∨ (op = 0x7 ∧ q = 3)) := by
  revert op q; decide

theorem meets_some_row_iff (w : Word) :
    (∃ r ∈ opcodeMap, w &&& r.mask = r.pattern) ↔
      (∃ r ∈ opcodeMap, opField w = opField r.pattern ∧ (opField r.pattern = 0x7 → qField w = qField r.pattern)) ∧
        w &&& mustBeZeroMask (opField w) = 0 := by
  constructor
  · rintro ⟨r, hr, hmeets⟩
    obtain ⟨hop, hq, hzero⟩ := (meets_row_iff hr w).1 hmeets
    exact ⟨⟨r, hr, hop, hq⟩, hop ▸ hzero⟩
  · rintro ⟨⟨r, hr, hop, hq⟩, hzero⟩
    exact ⟨r, hr, (meets_row_iff hr w).2 ⟨hop, hq, hop ▸ hzero⟩⟩

/-- Settles O2: a word meets no row when no row has its `op` and quantity, or when it has a must-be-zero bit set. -/
theorem illegalWordsAreTheFourKinds : Obligations.IllegalWordsAreTheFourKinds := by
  unfold Obligations.IllegalWordsAreTheFourKinds
  constructor
  · intro w
    rw [decode_eq_error_iff, meets_some_row_iff, exists_row_iff, not_and_or, not_not]
    tauto
  · intro s w rest k hin hdecode
    exact Machine.step_illegal hin hdecode

/-- Settles O4: the decoder evaluated on the seven words. -/
theorem decodesWrittenOutWords : Obligations.DecodesWrittenOutWords := by
  unfold Obligations.DecodesWrittenOutWords
  decide

end Sys2Proof
end

section
/-!
SUPPORT. The assembler's words as numbers and the expansions of the pseudo-instructions (30_encoding.md R54, R55).
-/
namespace Sys2Proof.Machine

/-! ### One line, one word (R54) -/

/-- The number of a packed word: each field at its place value. -/
theorem packFields_eq_ofNat (op : BitVec 4) (q : BitVec 2) (off imm8 : Byte) :
    packFields op q off imm8 =
      BitVec.ofNat 32 (op.toNat * 2 ^ 28 + q.toNat * 2 ^ 24 + off.toNat * 256 + imm8.toNat) := by
  apply BitVec.eq_of_toNat_eq
  have hcat (m n : Nat) (x : BitVec m) (y : BitVec n) : (x ++ y).toNat = x.toNat * 2 ^ n + y.toNat := by
    rw [BitVec.toNat_append, ← Nat.shiftLeft_add_eq_or_of_lt y.isLt, Nat.shiftLeft_eq]
  simp only [packFields, hcat, BitVec.ofNat_eq_ofNat, BitVec.toNat_ofNat]
  omega

theorem operandByte_toNat {n : Nat} (h : n ≤ 255) : (operandByte n).toNat = n :=
  BitVec.toNat_ofNat n 8 ▸ Nat.mod_eq_of_lt (by omega)

theorem fitsByte_iff {n : Nat} : fitsByte n = true ↔ n ≤ 255 := by
  simp [fitsByte, Nat.lt_succ_iff]

/-- The word of a command with `off` alone. -/
theorem packFields_operandByte {off : Nat} (op : BitVec 4) (q : BitVec 2) (h : off ≤ 255) :
    packFields op q (operandByte off) 0 = BitVec.ofNat 32 (op.toNat * 2 ^ 28 + q.toNat * 2 ^ 24 + off * 256) := by
  simp [packFields_eq_ofNat, operandByte_toNat h]

/-- A line that stands for one command is its word where the operands fit, and is refused otherwise. -/
theorem assembleLine_eq_ite {calLen : Nat} {line : AsmLine} {i : Instr} {w : Word} {p : Prop} [Decidable p]
    (hwf : line.wellFormed calLen = true ↔ p) (hexpand : expandLine line = [i]) (hword : p → encode i = w) :
    assembleLine calLen line = if p then some [w] else none := by
  unfold assembleLine
  by_cases hp : p
  · rw [if_pos hp, if_pos (hwf.2 hp), hexpand, List.map_singleton, hword hp]
  · rw [if_neg hp, if_neg (mt hwf.1 hp)]

/-- Settles O51: each line stands for one command, whose word is the sum of its fields at their place values. -/
theorem assemblerWordsAndRefusals : Obligations.AssemblerWordsAndRefusals := by
  unfold Obligations.AssemblerWordsAndRefusals
  refine ⟨fun n => ⟨rfl, rfl, rfl, rfl, rfl, rfl, rfl⟩, fun n off byte => ?_, fun n off => ?_, fun n off => ?_,
    fun n off => ?_, fun n off => ?_⟩
  · refine assembleLine_eq_ite (by simp [AsmLine.wellFormed, fitsByte_iff]) rfl fun ⟨hoff, hbyte⟩ => ?_
    rw [encode, packFields_eq_ofNat, operandByte_toNat hoff, operandByte_toNat hbyte]
    rfl
  · exact assembleLine_eq_ite fitsByte_iff rfl (packFields_operandByte 0x6 0)
  · exact assembleLine_eq_ite fitsByte_iff rfl (packFields_operandByte 0x7 0)
  · exact assembleLine_eq_ite fitsByte_iff rfl (packFields_operandByte 0x7 1)
  · exact assembleLine_eq_ite fitsByte_iff rfl (packFields_operandByte 0x7 2)

/-! ### Pseudo-instructions (R55) -/

theorem burst_eq_map_range (off : Nat) (bytes : List Nat) : burst off bytes =
    (List.range bytes.length).map (fun k => .rxb (operandByte (off + k)) (operandByte (bytes.getD k 0))) := by
  induction bytes generalizing off with
  | nil => rfl
  | cons b bs ih =>
    rw [burst, ih, List.length_cons, List.range_succ_eq_map, List.map_cons, List.map_map]
    simp [Function.comp_def, Nat.add_assoc, Nat.add_comm 1]

/-- Settles O52: a burst by induction on its bytes; the other expansions are written in terms of it. -/
theorem pseudoInstructionsExpand : Obligations.PseudoInstructionsExpand := by
  unfold Obligations.PseudoInstructionsExpand
  exact ⟨burst_eq_map_range, fun bytes => rfl, fun q m l x => rfl, fun m l x => rfl⟩

end Sys2Proof.Machine
end

section
/-!
SUPPORT. The buffer commands `RXB` and `RXCLR`: what each answers in each of its cases (40_buffer.md R61, R62).
-/
namespace Sys2Proof.Machine

/-! ### The guard that both commands begin with (60_exceptions.md R115) -/

theorem requireSession_closed {s : State} (hs : s.sess = .closed) : s.requireSession = .error .notReady := by
  obtain ⟨-, hguard⟩ | ⟨hopen, -⟩ := requireSession_cases s
  · exact hguard
  · exact absurd hs hopen

theorem requireSession_ok {s : State} (hs : s.sess ≠ .closed) : s.requireSession = .ok () := by
  obtain ⟨hclosed, -⟩ | ⟨-, hguard⟩ := requireSession_cases s
  · exact absurd hclosed hs
  · exact hguard

/-! ### `RXB` (R61) -/

theorem exec_rxb_notReady {s : State} (off imm8 : Byte) (hs : s.sess = .closed) :
    exec (.rxb off imm8) s = .next (s.raise .notReady) := by
  simp [exec, execRxb, requireSession_closed hs, bind, Except.bind]

theorem exec_rxb_range {s : State} {off : Byte} (imm8 : Byte) (hs : s.sess ≠ .closed)
    (hout : s.params.bufSize ≤ off.toNat) : exec (.rxb off imm8) s = .next (s.raise .range) := by
  have hwrite : s.memWrite (offset off) imm8 = .error .range := memWrite_range imm8 (Nat.lt_succ_of_le hout)
  simp [exec, execRxb, requireSession_ok hs, hwrite, bind, Except.bind]

/-- Settles O19: the word has both operand bytes, and the success stores at the command's own offset. -/
theorem rxbStoresItsByte : Obligations.RxbStoresItsByte := by
  unfold Obligations.RxbStoresItsByte
  refine ⟨fun off imm8 => ?word, fun s off imm8 hs hfit => ?success, fun s off imm8 => exec_rxb_notReady off imm8,
    fun s off imm8 => exec_rxb_range imm8⟩
  case word => simp [encode, packFields_eq_or]
  case success =>
    refine ⟨_, exec_rxb_ok imm8 hs hfit, ?_, ?_, fun a ha => ?_, rfl⟩
    · exact byteAt_putByte_same s.buf off.toNat imm8
    · exact congrArg Option.isSome (byteAt_putByte_same s.buf off.toNat imm8)
    · exact byteAt_putByte_ne s.buf imm8 ha

/-! ### `RXCLR` (R62) -/

theorem exec_rxclr_notReady {s : State} (hs : s.sess = .closed) : exec .rxclr s = .next (s.raise .notReady) := by
  simp [exec, execRxclr, requireSession_closed hs, bind, Except.bind]

theorem exec_rxclr_ok {s : State} (hs : s.sess ≠ .closed) :
    exec .rxclr s = .next (s.memInvalidate 0 s.params.bufSize).complete := by
  simp [exec, execRxclr, requireSession_ok hs, bind, Except.bind, pure, Except.pure]

/-- Settles O20: the success invalidates the offsets below `BUF_SIZE` and reads as before elsewhere. -/
theorem rxclrInvalidatesTheBuffer : Obligations.RxclrInvalidatesTheBuffer := by
  unfold Obligations.RxclrInvalidatesTheBuffer
  refine ⟨rfl, fun s hs => ?_, fun s => exec_rxclr_notReady⟩
  have hafter (a : Nat) : byteAt (s.memInvalidate 0 s.params.bufSize).complete.buf a =
      if a < s.params.bufSize then none else byteAt s.buf a :=
    Succeeds.byteAt_eq (i := .rxclr) ⟨hs, rfl⟩ a
  refine ⟨_, exec_rxclr_ok hs, fun a ha => ?_, fun a ha => ?_, rfl⟩
  · have hnone := (hafter a).trans (if_pos ha)
    exact ⟨congrArg Option.isSome hnone, hnone⟩
  · exact (hafter a).trans (if_neg (Nat.not_lt.mpr ha))

end Sys2Proof.Machine
end

section
/-!
SUPPORT. Bytes to integers and the commands that decode them, `LDCAL` and `ASM`: the readings of 41_decode.md R67 and
R68, and what each command answers in each of its cases (R65, R66).
-/
namespace Sys2Proof.Machine

/-! ### A byte pair as a 16-bit number (R67) -/

theorem toNat_append_eq_add {m n : Nat} (x : BitVec m) (y : BitVec n) :
    (x ++ y).toNat = x.toNat * 2 ^ n + y.toNat := by
  rw [BitVec.toNat_append, ← Nat.shiftLeft_add_eq_or_of_lt y.isLt, Nat.shiftLeft_eq]

theorem le16_eq_append (lo hi : Byte) : le16 lo hi = hi ++ lo := by
  apply BitVec.eq_of_getLsbD_eq
  intro i hlt
  simp only [le16, BitVec.getLsbD_or, BitVec.getLsbD_append, BitVec.getLsbD_shiftLeft, BitVec.getLsbD_setWidth]
  interval_cases i <;> simp

theorem toNat_le16 (lo hi : Byte) : (le16 lo hi).toNat = lo.toNat + 256 * hi.toNat := by
  rw [le16_eq_append, toNat_append_eq_add]
  omega

theorem toInt_le16 (lo hi : Byte) : (le16 lo hi).toInt =
    if lo.toNat + 256 * hi.toNat ≤ 32767 then (lo.toNat : Int) + 256 * hi.toNat
      else (lo.toNat : Int) + 256 * hi.toNat - 65536 := by
  rw [BitVec.toInt_eq_toNat_cond, toNat_le16]
  split <;> split <;> omega

theorem le16_inj {lo hi lo' hi' : Byte} (h : le16 lo hi = le16 lo' hi') : lo = lo' ∧ hi = hi' := by
  have hnum : lo.toNat + 256 * hi.toNat = lo'.toNat + 256 * hi'.toNat := by rw [← toNat_le16, h, toNat_le16]
  constructor <;> apply BitVec.eq_of_toNat_eq <;> omega

theorem le16_extract (v : BitVec 16) : le16 (v.extractLsb' 0 8) (v.extractLsb' 8 8) = v := by
  apply BitVec.eq_of_toNat_eq
  rw [toNat_le16, BitVec.extractLsb'_toNat, BitVec.extractLsb'_toNat, Nat.shiftRight_eq_div_pow,
    Nat.shiftRight_eq_div_pow]
  omega

/-- Settles O23: the pair is the number with digits `lo` and `hi` to the base 256. -/
theorem coefficientByteLaws : Obligations.CoefficientByteLaws := by
  unfold Obligations.CoefficientByteLaws
  exact ⟨fun lo hi => ⟨toNat_le16 lo hi, toInt_le16 lo hi⟩, fun lo hi lo' hi' => le16_inj,
    fun v => ⟨_, _, le16_extract v⟩⟩

/-! ### Three bytes as a raw sample (R68) -/

theorem raw20_eq_append (msb lsb xlsb : Byte) : raw20 msb lsb xlsb = msb ++ lsb ++ xlsb.extractLsb' 4 4 := by
  apply BitVec.eq_of_getLsbD_eq
  intro i hlt
  simp only [raw20, BitVec.getLsbD_or, BitVec.getLsbD_append, BitVec.getLsbD_shiftLeft, BitVec.getLsbD_ushiftRight,
    BitVec.getLsbD_setWidth, BitVec.getLsbD_extractLsb']
  interval_cases i <;> simp

theorem toNat_raw20 (msb lsb xlsb : Byte) :
    (raw20 msb lsb xlsb).toNat = 4096 * msb.toNat + 16 * lsb.toNat + xlsb.toNat / 16 := by
  rw [raw20_eq_append, toNat_append_eq_add, toNat_append_eq_add, BitVec.extractLsb'_toNat,
    Nat.shiftRight_eq_div_pow]
  omega

theorem raw20_extract (v : BitVec 20) :
    raw20 (v.extractLsb' 12 8) (v.extractLsb' 4 8) (v.extractLsb' 0 4 ++ (0 : BitVec 4)) = v := by
  apply BitVec.eq_of_toNat_eq
  simp only [toNat_raw20, toNat_append_eq_add, BitVec.extractLsb'_toNat, Nat.shiftRight_eq_div_pow]
  simp only [BitVec.ofNat_eq_ofNat, BitVec.toNat_ofNat]
  omega

/-- Settles O24: the sample has the three bytes at their place values, the last without its low four bits. -/
theorem sampleByteLaws : Obligations.SampleByteLaws := by
  unfold Obligations.SampleByteLaws
  exact ⟨fun msb lsb xlsb => ⟨raw20_eq_append msb lsb xlsb, toNat_raw20 msb lsb xlsb⟩,
    fun v => ⟨_, _, _, raw20_extract v⟩⟩

/-! ### Reading and consuming a run of bytes (20_memory.md R34, R36) -/

theorem bytesAt_eq_map_range {m : List Host.Cell} {a n : Nat} {b : Nat → Byte}
    (h : ∀ i < n, byteAt m (a + i) = some (b i)) : bytesAt m a n = some ((List.range n).map b) := by
  induction n generalizing a b with
  | zero => rfl
  | succ n ih =>
    have hhead : byteAt m a = some (b 0) := h 0 n.succ_pos
    have htail : bytesAt m (a + 1) n = some ((List.range n).map fun i => b (i + 1)) := ih fun i hi => by
      rw [Nat.add_right_comm]
      exact h (i + 1) (Nat.succ_lt_succ hi)
    simp [bytesAt, hhead, htail, List.range_succ_eq_map, Function.comp_def]

theorem memRead_of_bytesAt {s : State} {a n : Nat} {b : List Byte} (hfit : a + n ≤ s.params.bufSize)
    (hb : bytesAt s.buf a n = some b) : s.memRead a n = .ok b := by
  simp [State.memRead, Nat.not_lt.mpr hfit, hb]

theorem byteAt_dropBytes_inside (m : List Host.Cell) (a : Nat) {n i : Nat} (hi : i < n) :
    byteAt (dropBytes m a n) (a + i) = none :=
  (byteAt_dropBytes m a n (a + i)).trans (if_pos (by omega))

theorem byteAt_dropBytes_outside (m : List Host.Cell) {a n b : Nat} (hb : b < a ∨ a + n ≤ b) :
    byteAt (dropBytes m a n) b = byteAt m b :=
  (byteAt_dropBytes m a n b).trans (if_neg (not_within_of_outside hb))

/-! ### `LDCAL` (R65) -/

/-- The table of `n` calibration bytes: three pairs, and the opaque bytes after them. -/
theorem decodeTable_map_range (b : Nat → Byte) {n : Nat} (hn : 6 ≤ n) :
    decodeTable ((List.range n).map b) =
      { t1 := le16 (b 0) (b 1), t2 := le16 (b 2) (b 3), t3 := le16 (b 4) (b 5),
        coefx := (List.range (n - 6)).map fun i => b (6 + i) } := by
  have hbyte (i : Nat) (hi : i < n) : nthByte ((List.range n).map b) i = b i := by simp [nthByte, hi]
  have hrest : ((List.range n).map b).drop 6 = (List.range (n - 6)).map fun i => b (6 + i) := by
    apply List.ext_getElem <;> simp
  rw [decodeTable, hbyte 0 (by omega), hbyte 1 (by omega), hbyte 2 (by omega), hbyte 3 (by omega),
    hbyte 4 (by omega), hbyte 5 (by omega), hrest]

theorem exec_ldcal_notReady {s : State} (off : Byte) (hs : s.sess = .closed) :
    exec (.ldcal off) s = .next (s.raise .notReady) := by
  simp [exec, execLdcal, State.requireConfiguring, hs, bind, Except.bind]

theorem exec_ldcal_locked {s : State} {c : Coeffs} (off : Byte) (hs : s.sess = .ready c) :
    exec (.ldcal off) s = .next (s.raise .locked) := by
  simp [exec, execLdcal, State.requireConfiguring, hs, bind, Except.bind]

/-- In Configuring the access decides: its fault is the command's, and its bytes make the table. -/
theorem exec_ldcal_configuring {s : State} (off : Byte) (hs : s.sess = .configuring) :
    exec (.ldcal off) s = s.finish ((s.memRead off.toNat s.params.calLen).map fun b =>
      { s.memInvalidate off.toNat s.params.calLen with sess := .ready (decodeTable b) }) := by
  simp [exec, execLdcal, State.requireConfiguring, hs, bind, Except.bind, pure, Except.pure, Except.map, offset]

/-- Settles O21: the session decides first, then the access at the command's own offset. -/
theorem ldcalLoadsTheTable : Obligations.LdcalLoadsTheTable := by
  unfold Obligations.LdcalLoadsTheTable
  refine ⟨fun off => ?word, fun s off b hvalid hs hfit hb => ?success, fun s off => exec_ldcal_notReady off,
    fun s off c => exec_ldcal_locked off, fun s off hs hout => ?range, fun s off hs hfit ⟨i, hi, hbv⟩ => ?stale⟩
  case word => simp [encode, packFields_eq_or]
  case success =>
    have hread := memRead_of_bytesAt hfit (bytesAt_eq_map_range hb)
    refine ⟨_, _, (exec_ldcal_configuring off hs).trans (by rw [hread]; rfl),
      congrArg Session.ready (decodeTable_map_range b hvalid.calLen_min), rfl, rfl, rfl, rfl, fun i hi => ?_,
      fun a ha => ?_, rfl⟩
    · exact byteAt_dropBytes_inside s.buf off.toNat hi
    · exact byteAt_dropBytes_outside s.buf ha
  case range =>
    rw [exec_ldcal_configuring off hs, memRead_range hout]
    rfl
  case stale =>
    rw [exec_ldcal_configuring off hs, memRead_stale hfit hi hbv]
    rfl

/-! ### `ASM` (R66) -/

theorem assemble_notReady {s : State} (off : Byte) (hs : ∀ c, s.sess ≠ .ready c) :
    s.assemble off = .error .notReady := by
  obtain ⟨-, hguard⟩ | ⟨c, hc, -⟩ := requireReady_cases s
  · simp [State.assemble, hguard, bind, Except.bind]
  · exact absurd hc (hs c)

theorem assemble_range {s : State} {off : Byte} {c : Coeffs} (hc : s.sess = .ready c)
    (hout : s.params.bufSize < off.toNat + 3) : s.assemble off = .error .range := by
  have hread : s.memRead (offset off) 3 = .error .range := memRead_range hout
  simp [State.assemble, State.requireReady, hc, hread, bind, Except.bind]

theorem assemble_ok {s : State} {off : Byte} {c : Coeffs} {msb lsb xlsb : Byte} (hc : s.sess = .ready c)
    (hfit : off.toNat + 3 ≤ s.params.bufSize) (hmsb : byteAt s.buf off.toNat = some msb)
    (hlsb : byteAt s.buf (off.toNat + 1) = some lsb) (hxlsb : byteAt s.buf (off.toNat + 2) = some xlsb) :
    s.assemble off = .ok (raw20 msb lsb xlsb, s.memInvalidate off.toNat 3) := by
  have hread : s.memRead (offset off) 3 = .ok [msb, lsb, xlsb] :=
    memRead_of_bytesAt (a := off.toNat) hfit (by simp [bytesAt, hmsb, hlsb, hxlsb])
  simp only [State.assemble, State.requireReady, hc, hread, bind, Except.bind]
  rfl

/-- Settles O22: the three forms share the fault or the sample of `State.assemble` and differ in the register. -/
theorem asmAssemblesTheSample : Obligations.AsmAssemblesTheSample := by
  unfold Obligations.AsmAssemblesTheSample
  refine ⟨fun off => ?words, fun s c off msb lsb xlsb hc hfit hmsb hlsb hxlsb => ?success,
    fun s off i hi => ?faults⟩
  case words => simp [encode, packFields_eq_or]
  case success =>
    have hasm := assemble_ok hc hfit hmsb hlsb hxlsb
    refine ⟨_, rfl, dropBytes s.buf off.toNat 3, fun i hi => byteAt_dropBytes_inside s.buf off.toNat hi,
      fun a ha => byteAt_dropBytes_outside s.buf ha, ?_, ?_, ?_⟩
    · rw [exec, execAsmT, hasm]
      rfl
    · rw [exec, execAsmP, hasm]
      rfl
    · rw [exec, execAsmH, hasm]
      rfl
  case faults =>
    exact ⟨fun hs => exec_asm_of_assemble_error hi (assemble_notReady off hs),
      fun c hc hout => exec_asm_of_assemble_error hi (assemble_range hc hout),
      fun c hc hfit ⟨k, hk, hbv⟩ => exec_asm_of_assemble_error hi (assemble_stale hc hfit hk hbv)⟩

end Sys2Proof.Machine
end

section
/-!
SUPPORT. The laws of `RN` over the rationals that `COMPT` rests on: it is odd and idempotent, commutes with powers of
two, keeps what 53 bits hold, and is `R53` on integers (00_scope.md R7, 42_compensation.md R77, R82).
-/
namespace Sys2Proof.Machine

/-! ### Rounding to an integer, ties to even -/

/-- What rounding is, without its cases: the one integer within a half that is even at exactly a half. -/
theorem eq_roundTiesToEven {q : ℚ} {k : ℤ} (hnear : |(k : ℚ) - q| ≤ 1 / 2)
    (heven : |(k : ℚ) - q| = 1 / 2 → k % 2 = 0) : k = roundTiesToEven q := by
  by_contra hne
  have hround := half_le_abs_sub_of_ne_roundTiesToEven hne
  have hk : k % 2 = 0 := heven (le_antisymm hnear hround)
  have hclose : |(k : ℚ) - roundTiesToEven q| ≤ |(k : ℚ) - q| + |(roundTiesToEven q : ℚ) - q| :=
    (abs_sub_le _ q _).trans_eq (by rw [abs_sub_comm q])
  have hbound := abs_roundTiesToEven_sub_le q
  have hapart : (1 : ℚ) ≤ |(k : ℚ) - roundTiesToEven q| := by exact_mod_cast Int.one_le_abs (sub_ne_zero.mpr hne)
  have heven' : roundTiesToEven q % 2 = 0 := roundTiesToEven_even_of_tie (le_antisymm hbound (by linarith))
  have hone : |k - roundTiesToEven q| ≤ 1 := by
    have : |(k : ℚ) - roundTiesToEven q| ≤ 1 := by linarith
    exact_mod_cast this
  rw [abs_le] at hone
  omega

theorem roundTiesToEven_neg (q : ℚ) : roundTiesToEven (-q) = -roundTiesToEven q := by
  have hdist : |((-roundTiesToEven q : ℤ) : ℚ) - -q| = |(roundTiesToEven q : ℚ) - q| := by
    rw [Int.cast_neg, ← neg_sub', abs_neg]
  refine (eq_roundTiesToEven (hdist.trans_le (abs_roundTiesToEven_sub_le q)) fun htie => ?_).symm
  have heven := roundTiesToEven_even_of_tie (hdist.symm.trans htie)
  omega

theorem roundHalfEven_eq (a : ℕ) {b : ℕ} (hb : 0 < b) : (roundHalfEven a b : ℤ) = roundTiesToEven ((a : ℚ) / b) := by
  have hb' : (0 : ℚ) < b := Nat.cast_pos.mpr hb
  have hfloor : ⌊(a : ℚ) / b⌋ = ((a / b : ℕ) : ℤ) := Rat.floor_natCast_div_natCast a b
  have hfrac : (a : ℚ) / b - ((a / b : ℕ) : ℤ) = ((a % b : ℕ) : ℚ) / b := by
    rw [Int.cast_natCast, eq_div_iff hb'.ne', sub_mul, div_mul_cancel₀ _ hb'.ne', sub_eq_iff_eq_add]
    exact_mod_cast (Nat.mod_add_div' a b).symm
  have hlt : ((a % b : ℕ) : ℚ) / b < 1 / 2 ↔ 2 * (a % b) < b := by
    rw [div_lt_div_iff₀ hb' two_pos, one_mul, mul_comm]
    exact_mod_cast Iff.rfl
  have hgt : ((a % b : ℕ) : ℚ) / b > 1 / 2 ↔ 2 * (a % b) > b := by
    rw [gt_iff_lt, div_lt_div_iff₀ two_pos hb', one_mul, mul_comm]
    exact_mod_cast Iff.rfl
  unfold roundTiesToEven roundHalfEven
  rw [hfloor, hfrac]
  simp only [hlt, hgt]
  split_ifs <;> omega

/-! ### `RN`: signs, scale and idempotence -/

@[simp] theorem rn_zero : rn 0 = 0 := by
  simp [rn_eq, rnSignificand, roundTiesToEven]

theorem rnUlp_neg (x : ℚ) : rnUlp (-x) = rnUlp x := by
  rw [rnUlp, abs_neg, rnUlp]

theorem rn_neg (x : ℚ) : rn (-x) = -rn x := by
  rw [rn_eq, rn_eq, rnSignificand, rnUlp_neg, neg_div, roundTiesToEven_neg, Int.cast_neg, neg_mul]
  rfl

/-- The exponent of `x` is the one whose binade holds it. -/
theorem int_log_eq {x : ℚ} {e : ℤ} (hlow : 2 ^ e ≤ x) (hhigh : x < 2 ^ (e + 1)) : Int.log 2 x = e := by
  have hx : 0 < x := (zpow_pos two_pos e).trans_le hlow
  refine le_antisymm (Int.lt_add_one_iff.mp ?_) ?_
  · exact (Int.lt_zpow_iff_log_lt one_lt_two hx).mp (by exact_mod_cast hhigh)
  · exact (Int.zpow_le_iff_le_log one_lt_two hx).mp (by exact_mod_cast hlow)

theorem int_log_mul_zpow {x : ℚ} (hx : 0 < x) (j : ℤ) : Int.log 2 (x * 2 ^ j) = Int.log 2 x + j := by
  have hpow : (0 : ℚ) < 2 ^ j := zpow_pos two_pos j
  apply int_log_eq
  · rw [zpow_add₀ two_ne_zero]
    exact mul_le_mul_of_nonneg_right (Int.zpow_log_le_self one_lt_two hx) hpow.le
  · rw [add_right_comm, zpow_add₀ two_ne_zero]
    exact mul_lt_mul_of_pos_right (Int.lt_zpow_succ_log_self one_lt_two x) hpow

theorem rn_mul_zpow (x : ℚ) (j : ℤ) : rn (x * 2 ^ j) = rn x * 2 ^ j := by
  by_cases hx : x = 0
  · simp [hx]
  · have hpow : (0 : ℚ) < 2 ^ j := zpow_pos two_pos j
    have hulp : rnUlp (x * 2 ^ j) = rnUlp x * 2 ^ j := by
      rw [rnUlp, abs_mul, abs_of_pos hpow, int_log_mul_zpow (abs_pos.mpr hx), add_sub_right_comm,
        zpow_add₀ two_ne_zero, rnUlp]
    rw [rn_eq, rnSignificand, hulp, mul_div_mul_right _ _ hpow.ne', ← mul_assoc]
    rfl

theorem rn_nearest {x : ℚ} {m : ℤ} (e : ℤ) (hm : |m| < 2 ^ 53) : |rn x - x| ≤ |(m : ℚ) * 2 ^ e - x| := by
  by_cases hx : x = 0
  · rw [hx, rn_zero, sub_self, abs_zero]
    exact abs_nonneg _
  · obtain ⟨k, hk⟩ | hbelow := multiple_or_below_binade x e hm
    · exact hk ▸ rn_nearest_multiple x k
    · exact (rn_nearer_than_below_binade hx hbelow).le

/-- What 53 bits hold is not rounded. -/
theorem rn_exact {m : ℤ} (e : ℤ) (hm : |m| < 2 ^ 53) : rn (m * 2 ^ e) = m * 2 ^ e := by
  have hdist := rn_nearest (x := m * 2 ^ e) e hm
  rw [sub_self, abs_zero] at hdist
  exact sub_eq_zero.mp (abs_nonpos_iff.mp hdist)

theorem rn_rn (x : ℚ) : rn (rn x) = rn x := by
  by_cases hx : x = 0
  · simp [hx]
  · obtain ⟨m, e, -, hm, hrn, -⟩ := rn_has_53_bit_significand hx
    rw [hrn, rn_exact e hm]

/-- `RN` does not pass a value that 53 bits hold. -/
theorem le_rn_of_le {x : ℚ} {m : ℤ} (e : ℤ) (hm : |m| < 2 ^ 53) (h : m * 2 ^ e ≤ x) : m * 2 ^ e ≤ rn x := by
  have hdist := (le_abs_self _).trans ((abs_sub_comm x (rn x)).trans_le (rn_nearest e hm))
  rw [abs_of_nonpos (sub_nonpos.mpr h)] at hdist
  linarith

theorem rn_le_of_le {x : ℚ} {m : ℤ} (e : ℤ) (hm : |m| < 2 ^ 53) (h : x ≤ m * 2 ^ e) : rn x ≤ m * 2 ^ e := by
  have hdist := (le_abs_self _).trans (rn_nearest (x := x) e hm)
  rw [abs_of_nonneg (sub_nonneg.mpr h)] at hdist
  linarith

@[simp] theorem rn_eq_zero_iff {x : ℚ} : rn x = 0 ↔ x = 0 := by
  refine ⟨fun h => by_contra fun hx => ?_, fun h => by rw [h, rn_zero]⟩
  have hsig := (abs_rnSignificand_bounds hx).1
  rw [rn_eq, mul_eq_zero, or_iff_left (rnUlp_pos x).ne', Int.cast_eq_zero] at h
  simp [h] at hsig

theorem rn_nonneg {x : ℚ} (hx : 0 ≤ x) : 0 ≤ rn x := by
  simpa using le_rn_of_le (m := 0) 0 (by norm_num) (by simpa using hx)

theorem abs_rn (x : ℚ) : |rn x| = rn |x| := by
  obtain hx | hx := le_total 0 x
  · rw [abs_of_nonneg hx, abs_of_nonneg (rn_nonneg hx)]
  · have hneg := rn_nonneg (neg_nonneg.mpr hx)
    rw [rn_neg] at hneg
    rw [abs_of_nonpos hx, rn_neg, abs_of_nonpos (neg_nonneg.mp hneg)]

theorem rn_lt_zero_iff {x : ℚ} : rn x < 0 ↔ x < 0 := by
  refine ⟨fun h => not_le.mp fun hx => h.not_ge (rn_nonneg hx), fun h => ?_⟩
  have hneg := rn_nonneg (neg_nonneg.mpr h.le)
  rw [rn_neg] at hneg
  exact lt_of_le_of_ne (neg_nonneg.mp hneg) (rn_eq_zero_iff.not.mpr h.ne)

/-! ### `R53` is `RN` on integers (42_compensation.md R82) -/

/-- `R53` rounds the quotient by `2^k`, where `k` bits are too many, and shifts back. -/
theorem r53Nat_eq (a : ℕ) :
    r53Nat a = roundHalfEven a (2 ^ (bitLength a - 53)) * 2 ^ (bitLength a - 53) := by
  by_cases hfit : bitLength a ≤ 53
  · simp [r53Nat, roundHalfEven, hfit, Nat.sub_eq_zero_of_le hfit, Nat.mod_one]
  · obtain ⟨k, hk⟩ : ∃ k, bitLength a - 53 = k + 1 := ⟨bitLength a - 54, by omega⟩
    have hmod : a - a / 2 ^ (k + 1) * 2 ^ (k + 1) = a % 2 ^ (k + 1) := by
      rw [mul_comm, Nat.mod_eq_sub_mul_div]
    simp only [r53Nat, roundHalfEven, hfit, hk, if_false, Nat.shiftRight_eq_div_pow, Nat.shiftLeft_eq, hmod,
      Nat.add_sub_cancel, ite_mul]
    have hpow : 2 ^ (k + 1) = 2 * 2 ^ k := pow_succ' 2 k
    congr 1
    rw [eq_iff_iff]
    omega

theorem rn_natCast (a : ℕ) : rn a = r53Nat a := by
  obtain hfit | hlong := Nat.lt_or_ge a (2 ^ 53)
  · have hexact := rn_exact (m := a) 0 (by rw [Nat.abs_cast]; exact_mod_cast hfit)
    rw [r53Nat_of_lt hfit]
    simpa using hexact
  · have ha : a ≠ 0 := by rintro rfl; norm_num at hlong
    have hlong' : 53 < bitLength a := not_le.mp (bitLength_le_53.not.mpr hlong.not_gt)
    have hulp : rnUlp a = ((2 ^ (bitLength a - 53) : ℕ) : ℚ) := by
      rw [rnUlp, Nat.abs_cast, Int.log_natCast, ← Nat.log2_eq_log_two, Nat.cast_pow, ← zpow_natCast]
      rw [bitLength_pos ha] at hlong' ⊢
      exact congrArg _ (by omega)
    rw [rn_eq, rnSignificand, hulp, ← roundHalfEven_eq a (Nat.two_pow_pos _), r53Nat_eq, Nat.cast_mul, Int.cast_natCast]

theorem r53_natCast (a : ℕ) : r53 a = r53Nat a := by
  obtain rfl | ha := Nat.eq_zero_or_pos a
  · rfl
  · rw [r53, Int.sign_natCast_of_ne_zero ha.ne', one_mul, Int.natAbs_natCast]

theorem r53_neg (n : ℤ) : r53 (-n) = -r53 n := by
  rw [r53, r53, Int.sign_neg, Int.natAbs_neg, neg_mul]

theorem rn_intCast (n : ℤ) : rn n = r53 n := by
  obtain ⟨a, rfl | rfl⟩ := n.eq_nat_or_neg
  · rw [r53_natCast, Int.cast_natCast, Int.cast_natCast, rn_natCast]
  · rw [r53_neg, r53_natCast, Int.cast_neg, Int.cast_neg, rn_neg, Int.cast_natCast, Int.cast_natCast, rn_natCast]

theorem r53_eq_zero_iff {n : ℤ} : r53 n = 0 ↔ n = 0 := by
  rw [← Int.cast_eq_zero (α := ℚ), ← rn_intCast, rn_eq_zero_iff, Int.cast_eq_zero]

/-- Settles O32: `RN` rounds an integer in units of `2^k`, as `R53` does, and both keep the sign. -/
theorem r53IsRnOnIntegers : Obligations.R53IsRnOnIntegers := by
  unfold Obligations.R53IsRnOnIntegers
  exact ⟨r53_zero, fun n _ => (rn_intCast n).symm⟩

end Sys2Proof.Machine
end

section
/-!
SUPPORT. `rnRatio` is `RN` of a ratio of positive integers, as significand and exponent (00_scope.md R7, R9,
42_compensation.md R80).
-/
namespace Sys2Proof.Machine

/-! ### The exponent of a ratio -/

theorem two_zpow_eq_ratio (k : ℤ) : (2 : ℚ) ^ k = 2 ^ k.toNat / 2 ^ (-k).toNat := by
  obtain ⟨n, rfl | rfl⟩ := k.eq_nat_or_neg <;> simp

theorem natLog2_bounds {a : ℕ} (ha : 0 < a) : (2 : ℚ) ^ (Nat.log2 a : ℤ) ≤ a ∧ (a : ℚ) < 2 ^ ((Nat.log2 a : ℤ) + 1) := by
  constructor
  · rw [zpow_natCast]
    exact_mod_cast Nat.log2_self_le ha.ne'
  · rw [← Nat.cast_succ, zpow_natCast]
    exact_mod_cast Nat.lt_log2_self

theorem floorLog2Ratio_eq {a b : ℕ} (ha : 0 < a) (hb : 0 < b) : floorLog2Ratio a b = Int.log 2 ((a : ℚ) / b) := by
  obtain ⟨halow, hahigh⟩ := natLog2_bounds ha
  obtain ⟨hblow, hbhigh⟩ := natLog2_bounds hb
  have hb' : (0 : ℚ) < b := Nat.cast_pos.mpr hb
  unfold floorLog2Ratio
  dsimp only
  set k : ℤ := (Nat.log2 a : ℤ) - Nat.log2 b with hk
  have htest : b * 2 ^ k.toNat ≤ a * 2 ^ (-k).toNat ↔ (2 : ℚ) ^ k ≤ a / b := by
    rw [two_zpow_eq_ratio, div_le_div_iff₀ (by positivity) hb', mul_comm]
    exact_mod_cast Iff.rfl
  have hupper : (a : ℚ) / b < 2 ^ (k + 1) := by
    rw [div_lt_iff₀ hb']
    calc (a : ℚ) < 2 ^ ((Nat.log2 a : ℤ) + 1) := hahigh
      _ = 2 ^ (k + 1) * 2 ^ (Nat.log2 b : ℤ) := by rw [← zpow_add₀ two_ne_zero]; congr 1; omega
      _ ≤ 2 ^ (k + 1) * b := mul_le_mul_of_nonneg_left hblow (by positivity)
  have hlower : (2 : ℚ) ^ (k - 1) ≤ a / b := by
    rw [le_div_iff₀ hb']
    calc (2 : ℚ) ^ (k - 1) * b ≤ 2 ^ (k - 1) * 2 ^ ((Nat.log2 b : ℤ) + 1) :=
          mul_le_mul_of_nonneg_left hbhigh.le (by positivity)
      _ = 2 ^ (Nat.log2 a : ℤ) := by rw [← zpow_add₀ two_ne_zero]; congr 1; omega
      _ ≤ a := halow
  split_ifs with h
  · exact (int_log_eq (htest.mp h) hupper).symm
  · refine (int_log_eq hlower ?_).symm
    rw [sub_add_cancel]
    exact not_le.mp (htest.not.mp h)

/-! ### Significand and exponent -/

theorem toBinary64_num {q : ℚ} {m : ℕ} {e : ℤ} (hlow : 2 ^ 52 ≤ m) (hhigh : m < 2 ^ 53) (hq : |q| = m * 2 ^ e) :
    (Double.num q).toBinary64 = .normal (q < 0) m e := by
  have hpow : (0 : ℚ) < 2 ^ e := zpow_pos two_pos e
  have hlog : Int.log 2 |q| - 52 = e := by
    rw [hq, int_log_mul_zpow (Nat.cast_pos.mpr (by omega)), Int.log_natCast,
      (Nat.log_eq_iff (by norm_num)).mpr ⟨hlow, hhigh⟩]
    omega
  rw [Double.toBinary64, hlog, hq, mul_div_cancel_right₀ _ hpow.ne', Nat.floor_natCast]

theorem rnRatio_significand {a b : ℕ} (ha : 0 < a) (hb : 0 < b) :
    (roundHalfEven (a * 2 ^ (-(floorLog2Ratio a b - 52)).toNat) (b * 2 ^ (floorLog2Ratio a b - 52).toNat) : ℤ) =
      rnSignificand ((a : ℚ) / b) := by
  have hx : (0 : ℚ) < a / b := div_pos (Nat.cast_pos.mpr ha) (Nat.cast_pos.mpr hb)
  rw [roundHalfEven_eq _ (by positivity), rnSignificand, rnUlp, abs_of_pos hx, ← floorLog2Ratio_eq ha hb,
    two_zpow_eq_ratio]
  push_cast
  rw [div_div_eq_mul_div, div_mul_eq_mul_div, div_div]

/-- The ratio rounded by integers is `RN` of the rational, put into the form of 00_scope.md R9. -/
theorem rnRatio_eq_toBinary64_rn {a b : ℕ} {x : ℚ} (ha : 0 < a) (hb : 0 < b) (hx : |x| = a / b) :
    rnRatio (x < 0) a b = (Double.num (rn x)).toBinary64 := by
  have hsig := rnRatio_significand ha hb
  have hx0 : (0 : ℚ) < a / b := div_pos (Nat.cast_pos.mpr ha) (Nat.cast_pos.mpr hb)
  obtain ⟨hlow, hhigh⟩ := abs_rnSignificand_bounds hx0.ne'
  have habs : |rn x| = rnSignificand ((a : ℚ) / b) * 2 ^ (floorLog2Ratio a b - 52) := by
    rw [abs_rn, hx, rn_eq, rnUlp, abs_of_pos hx0, ← floorLog2Ratio_eq ha hb]
  have hsign : decide (x < 0) = decide (rn x < 0) := by rw [decide_eq_decide, rn_lt_zero_iff]
  rw [← hsig, Nat.abs_cast] at hlow hhigh
  rw [← hsig, Int.cast_natCast] at habs
  unfold rnRatio
  dsimp only
  rw [hsign]
  generalize roundHalfEven _ _ = m at *
  split_ifs with hm
  · rw [toBinary64_num le_rfl (by norm_num) (e := floorLog2Ratio a b - 52 + 1)]
    rw [habs, hm, zpow_add_one₀ two_ne_zero]
    push_cast
    ring
  · exact (toBinary64_num (by exact_mod_cast hlow) (by omega) habs).symm

end Sys2Proof.Machine
end

section
/-!
SUPPORT. `COMPT` (42_compensation.md R73 to R88): the pseudocode over the rationals computes the stages, whose results
stay in range; and what the command answers in each of its cases.
-/
namespace Sys2Proof.Machine

/-! ### Conversion to an integer, toward zero (R79) -/

theorem truncToInt_neg (x : ℚ) : truncToInt (-x) = -truncToInt x := by
  obtain hx | rfl | hx := lt_trichotomy x 0
  · rw [truncToInt, truncToInt, if_pos (neg_nonneg.mpr hx.le), if_neg hx.not_ge, Int.floor_neg]
  · simp [truncToInt]
  · rw [truncToInt, truncToInt, if_neg (not_le.mpr (neg_neg_iff_pos.mpr hx)), if_pos hx.le, Int.ceil_neg]

theorem stageConv_neg (S : ℤ) : stageConv (-S) = -stageConv S := by
  rw [stageConv, stageConv, Int.sign_neg, Int.natAbs_neg, neg_mul]

theorem stageConv_natCast (a : ℕ) : stageConv a = (a / 2 ^ 34 : ℕ) := by
  obtain rfl | ha := Nat.eq_zero_or_pos a
  · rfl
  · rw [stageConv, Int.sign_natCast_of_ne_zero ha.ne', one_mul, Int.natAbs_natCast, Nat.shiftRight_eq_div_pow]

theorem truncToInt_div (S : ℤ) : truncToInt (S / 2 ^ 34) = stageConv S := by
  have hnat (a : ℕ) : truncToInt ((a : ℚ) / 2 ^ 34) = stageConv a := by
    have hfloor := Rat.floor_natCast_div_natCast a (2 ^ 34)
    rw [truncToInt, if_pos (by positivity), stageConv_natCast, Int.natCast_ediv, ← hfloor]
    push_cast
    rfl
  obtain ⟨a, rfl | rfl⟩ := S.eq_nat_or_neg
  · rw [Int.cast_natCast, hnat]
  · rw [Int.cast_neg, Int.cast_natCast, neg_div, truncToInt_neg, hnat, stageConv_neg]

/-! ### The pseudocode over the rationals computes the stages (R73, R75 to R80) -/

theorem rn_intCast_div (n : ℤ) (k : ℕ) : rn (n / 2 ^ k) = r53 n / 2 ^ k := by
  rw [div_eq_mul_inv, ← zpow_natCast, ← zpow_neg, rn_mul_zpow, rn_intCast, zpow_neg, ← div_eq_mul_inv]

theorem exactD_eq (raw : BitVec 20) (c : Coeffs) : exactD raw c = stageD raw c.t1 := by
  simp [exactD, stageD]

theorem exactV1_eq (raw : BitVec 20) (c : Coeffs) : exactV1 raw c = stageP1 (stageD raw c.t1) c.t2 / 2 ^ 14 := by
  rw [exactV1, exactD_eq, stageP1, Int.cast_mul]

theorem exactV2_eq (raw : BitVec 20) (c : Coeffs) : exactV2 raw c = r53 (stageP2 (stageD raw c.t1) c.t3) / 2 ^ 34 := by
  have hp : exactD raw c * exactD raw c * c.t3.toInt = stageP2 (stageD raw c.t1) c.t3 := by
    rw [exactD_eq, stageP2, stageQ, Int.cast_mul, Int.cast_mul]
  rw [exactV2, hp]
  rw [rn_intCast_div]
  split_ifs with h
  · rw [Int.cast_eq_zero.mp h, r53_zero, Int.cast_zero, zero_div]
  · rfl

/-- The exact sum of the two terms has the numerator `N` (R78). -/
theorem stageN_div (d : ℤ) (t2 t3 : BitVec 16) :
    (stageP1 d t2 : ℚ) / 2 ^ 14 + r53 (stageP2 d t3) / 2 ^ 34 = stageN d t2 t3 / 2 ^ 34 := by
  rw [stageN]
  push_cast
  ring

theorem exactS_eq (raw : BitVec 20) (c : Coeffs) : exactS raw c = stageS (stageD raw c.t1) c.t2 c.t3 / 2 ^ 34 := by
  rw [exactS, exactV1_eq, exactV2_eq, stageN_div, stageS, ← rn_intCast_div]
  split_ifs with h
  · rw [h, rn_zero]
  · rfl

theorem exactS_eq_zero_iff (raw : BitVec 20) (c : Coeffs) :
    exactS raw c = 0 ↔ stageS (stageD raw c.t1) c.t2 c.t3 = 0 := by
  rw [exactS_eq, div_eq_zero_iff, or_iff_left (by norm_num), Int.cast_eq_zero]

theorem exactFine_eq (raw : BitVec 20) (c : Coeffs) :
    exactFine raw c = stageConv (stageS (stageD raw c.t1) c.t2 c.t3) := by
  rw [exactFine, exactS_eq, truncToInt_div]

/-- Stage DIV is `RN` of the rational `s / 5120` (R80). -/
theorem stageDiv_eq_toBinary64_rn (d : ℤ) (t2 t3 : BitVec 16) {S : ℤ} (hS : S ≠ 0) :
    stageDiv d t2 t3 S = (Double.num (rn (S / 2 ^ 34 / 5120))).toBinary64 := by
  have hscale : (S : ℚ) / 2 ^ 34 / 5120 = S / (5 * 2 ^ 44 : ℕ) := by push_cast; ring
  have habs : |(S : ℚ) / (5 * 2 ^ 44 : ℕ)| = S.natAbs / (5 * 2 ^ 44 : ℕ) := by
    rw [abs_div, Nat.abs_cast, Nat.cast_natAbs, Int.cast_abs]
  have hsign : decide (S < 0) = decide ((S : ℚ) / (5 * 2 ^ 44 : ℕ) < 0) := by
    rw [decide_eq_decide, div_lt_iff₀ (by norm_num), zero_mul, Int.cast_lt_zero]
  rw [stageDiv, if_neg hS, hsign, hscale, rnRatio_eq_toBinary64_rn (Int.natAbs_pos.mpr hS) (by norm_num) habs]

theorem compOut_of_ne_zero {raw : BitVec 20} {c : Coeffs} (hS : stageS (stageD raw c.t1) c.t2 c.t3 ≠ 0) :
    compOut raw c = bits64 (Double.num (rn (stageS (stageD raw c.t1) c.t2 c.t3 / 2 ^ 34 / 5120))).toBinary64 := by
  rw [compOut]
  rw [stageDiv_eq_toBinary64_rn _ _ _ hS]

theorem compOut_of_eq_zero {raw : BitVec 20} {c : Coeffs} (hS : stageS (stageD raw c.t1) c.t2 c.t3 = 0) :
    compOut raw c = bits64 (zeroOut (stageD raw c.t1) c.t2 c.t3) := by
  rw [compOut]
  rw [hS, stageDiv, if_pos rfl]

theorem exactOut_eq (raw : BitVec 20) (c : Coeffs) : exactOut raw c = compOut raw c := by
  have hd : exactD raw c = 0 ↔ stageD raw c.t1 = 0 := by rw [exactD_eq, Int.cast_eq_zero]
  rw [exactOut]
  simp only [exactS_eq_zero_iff, hd]
  split_ifs with hS
  · rw [compOut_of_eq_zero hS, zeroOut]
  · rw [compOut_of_ne_zero hS, exactS_eq]

/-! ### Ranges (R75 to R79, R86) -/

/-- Settles O33: the bounds of the factors carry over to the products, and `R53` does not pass an end of a range. -/
theorem stagesStayInTheirRanges : Obligations.StagesStayInTheirRanges := by
  unfold Obligations.StagesStayInTheirRanges
  intro raw t1 t2 t3 d
  have hd : |d| ≤ 1048575 := abs_stageD_le raw t1
  have hQ : stageQ d ≤ 1099509530625 :=
    calc stageQ d = |d| * |d| := (abs_mul_abs_self d).symm
      _ ≤ 1048575 * 1048575 := by gcongr
      _ = 1099509530625 := by norm_num
  have hN := abs_le.mp (abs_stageN_le hd t2 t3)
  have ht1 := t1.isLt
  refine ⟨⟨?_, (abs_le.mp hd).2⟩, abs_le.mp (abs_stageP1_le hd t2), ⟨mul_self_nonneg d, hQ⟩,
    abs_le.mp (abs_stageP2_le hd t3), ⟨?_, ?_⟩, abs_le.mp (abs_stageS_le hd t2 t3)⟩
  · simp only [d, stageD]
    omega
  · exact hN.1.trans_lt' (by norm_num)
  · exact hN.2.trans_lt (by norm_num)

/-- The 32 bits of `FINE` hold the result of stage CONV. -/
theorem toInt_compFine (raw : BitVec 20) (c : Coeffs) :
    (compFine raw c).toInt = stageConv (stageS (stageD raw c.t1) c.t2 c.t3) := by
  have hconv := abs_le.mp (abs_stageConv_le (abs_stageS_le (abs_stageD_le raw c.t1) c.t2 c.t3))
  rw [compFine, BitVec.toInt_ofInt_eq_self (by norm_num) (by norm_num; omega) (by norm_num; omega)]

/-- The biased exponent of a value's pattern is that of its binade. -/
theorem bits64_num_exponent (q : ℚ) : (bits64 (Double.num q).toBinary64).extractLsb' 52 11 =
    BitVec.ofNat 11 (Int.log 2 |q| - 52 + 1075).toNat :=
  bits64_normal_exponent ..

/-- A non-zero temperature lies from `2^-47` to below `2^10`, before and after its rounding. -/
theorem log_celsius_bounds {S : ℤ} (hS : S ≠ 0) (hmax : |S| ≤ 72057490958745600) :
    -47 ≤ Int.log 2 |rn (S / 2 ^ 34 / 5120)| ∧ Int.log 2 |rn (S / 2 ^ 34 / 5120)| ≤ 9 := by
  have hmin : (1 : ℚ) ≤ |(S : ℚ)| := by exact_mod_cast Int.one_le_abs hS
  have hmax' : |(S : ℚ)| ≤ 72057490958745600 := by exact_mod_cast hmax
  have habs : |(S : ℚ) / 2 ^ 34 / 5120| = |(S : ℚ)| / 2 ^ 34 / 5120 := by
    rw [abs_div, abs_div, abs_of_pos (by norm_num : (0 : ℚ) < 2 ^ 34), abs_of_pos (by norm_num : (0 : ℚ) < 5120)]
  have hlow := le_rn_of_le (x := |(S : ℚ)| / 2 ^ 34 / 5120) (m := 1) (-47) (by norm_num) (by norm_num; linarith)
  have hhigh := rn_le_of_le (x := |(S : ℚ)| / 2 ^ 34 / 5120) (m := 1000) 0 (by norm_num) (by norm_num; linarith)
  rw [Int.cast_one, one_mul] at hlow
  rw [abs_rn, habs]
  have hpos := (zpow_pos two_pos (-47)).trans_le hlow
  constructor
  · exact (Int.zpow_le_iff_le_log one_lt_two hpos).mp (by exact_mod_cast hlow)
  · refine Int.lt_add_one_iff.mp ((Int.lt_zpow_iff_log_lt one_lt_two hpos).mp (hhigh.trans_lt ?_))
    norm_num

theorem compOut_zero_pattern {raw : BitVec 20} {c : Coeffs} (hS : stageS (stageD raw c.t1) c.t2 c.t3 = 0) :
    compOut raw c =
      if stageD raw c.t1 = 0 ∧ c.t2.toInt < 0 ∧ c.t3.toInt < 0 then 0x8000000000000000 else 0 := by
  rw [compOut_of_eq_zero hS, zeroOut]
  split_ifs with h
  · simp only [h, and_self, decide_true]
    decide
  · simp only [h, decide_false]
    decide

/-- Settles O34: the exponent of `OUT_T` is that of its binade, and the zeros are those of R85. -/
theorem compTResultsStayInRange : Obligations.CompTResultsStayInRange := by
  unfold Obligations.CompTResultsStayInRange
  refine fun raw c => ⟨compFine_bounds raw c, fun hS => ?_, fun hS => ?_⟩
  · obtain ⟨hlow, hhigh⟩ := log_celsius_bounds hS (abs_stageS_le (abs_stageD_le raw c.t1) c.t2 c.t3)
    rw [compOut_of_ne_zero hS, bits64_num_exponent, BitVec.toNat_ofNat, Nat.mod_eq_of_lt (by omega)]
    omega
  · rw [compOut_zero_pattern hS]
    split_ifs
    · exact .inr rfl
    · exact .inl rfl

/-- Settles O35: `R53` answers 0 for 0 alone, and the zero of `OUT_T` is the one of stage DIV. -/
theorem zeroResultsHaveTheirSign : Obligations.ZeroResultsHaveTheirSign := by
  unfold Obligations.ZeroResultsHaveTheirSign
  intro raw c d
  refine ⟨r53_eq_zero_iff, fun hN => ?_⟩
  have hS : stageS d c.t2 c.t3 = 0 := r53_eq_zero_iff.mpr hN
  refine ⟨?_, compOut_zero_pattern hS⟩
  rw [compFine, hS]
  rfl

/-! ### The command (R73, R88) -/

theorem requireReady_notReady {s : State} (hs : ∀ c, s.sess ≠ .ready c) : s.requireReady = .error .notReady := by
  obtain ⟨-, hguard⟩ | ⟨c, hc, -⟩ := requireReady_cases s
  · exact hguard
  · exact absurd hc (hs c)

theorem requireReady_ok {s : State} {c : Coeffs} (hc : s.sess = .ready c) : s.requireReady = .ok c := by
  simp [State.requireReady, hc]

theorem exec_compT_notReady {s : State} (hs : ∀ c, s.sess ≠ .ready c) :
    exec .compT s = .next (s.raise .notReady) := by
  simp [exec, execCompT, requireReady_notReady hs, bind, Except.bind]

theorem exec_compT_noSample {s : State} {c : Coeffs} (hc : s.sess = .ready c) (hraw : s.rawT = none) :
    exec .compT s = .next (s.raise .noSample) := by
  simp [exec, execCompT, requireReady_ok hc, requireSample, hraw, bind, Except.bind]

theorem exec_compT_ok {s : State} {c : Coeffs} {raw : BitVec 20} (hc : s.sess = .ready c) (hraw : s.rawT = some raw) :
    exec .compT s = .next (State.complete { s with fine := some (compFine raw c), outT := some (compOut raw c) }) := by
  simp [exec, execCompT, requireReady_ok hc, requireSample, hraw, bind, Except.bind, pure, Except.pure]

/-- Settles O26: the command writes the stages' results, which are the pseudocode's, and `FINE` fits its 32 bits. -/
theorem compTWritesTheFormulaResults : Obligations.CompTWritesTheFormulaResults := by
  unfold Obligations.CompTWritesTheFormulaResults
  refine ⟨by decide, fun s c raw hc hraw => ⟨?_, ?_⟩, fun s => exec_compT_notReady, fun s c => exec_compT_noSample⟩
  · rw [exec_compT_ok hc hraw, exactFine_eq, exactOut_eq]
    rfl
  · rw [exactFine_eq]
    exact toInt_compFine raw c

/-- Settles O36: the two results are functions of the sample and the three coefficients, and the success leaves both
as they were. -/
theorem compTIsPureAndRepeatable : Obligations.CompTIsPureAndRepeatable := by
  unfold Obligations.CompTIsPureAndRepeatable
  constructor
  · intro s s' t t' c c' hc hc' ht1 ht2 ht3 hraw h h' hok
    obtain ⟨c₀, raw, hc₀, hraw₀, rfl⟩ := succeeds_of_last_ok h hok
    obtain rfl : c₀ = c := Session.ready.inj (hc₀.symm.trans hc)
    rw [exec_compT_ok hc' (hraw.symm.trans hraw₀)] at h'
    obtain rfl := Host.Outcome.next.inj h'
    refine ⟨rfl, ?_, ?_⟩
    · simp [compFine, ht1, ht2, ht3]
    · simp [compOut, ht1, ht2, ht3]
  · intro s t h hok
    obtain ⟨c, raw, hc, hraw, rfl⟩ := succeeds_of_last_ok h hok
    exact exec_compT_ok hc hraw

end Sys2Proof.Machine
end

section
/-!
SUPPORT. MAS's four lines in binary64 (42_compensation.md R74, R81): each operation is `RN` of the exact result, so the
lines compute the stages; and a sum that is zero is `-0` only as the sum of two `-0` (R85).
-/
namespace Sys2Proof.Machine

/-! ### Binary64 operations on the rationals they stand for (R83) -/

/-- What an operation of binary64 can return: a zero, or a non-zero rational that 53 bits hold. -/
def Double.Valid : Double → Prop
  | .zero _ => True
  | .num q => q ≠ 0 ∧ rn q = q

theorem Double.Valid.rn_toRat {x : Double} (hx : x.Valid) : rn x.toRat = x.toRat := by
  cases x with
  | zero neg => exact rn_zero
  | num q => exact hx.2

theorem Double.valid_round (neg : Bool) (q : ℚ) : (Double.round neg q).Valid := by
  unfold Double.round
  split_ifs with hq
  · trivial
  · exact ⟨rn_eq_zero_iff.not.mpr hq, rn_rn q⟩

theorem Double.valid_mul (x y : Double) : (x.mul y).Valid := Double.valid_round ..

theorem Double.valid_divBy (x : Double) (c : ℚ) : (x.divBy c).Valid := Double.valid_round ..

theorem Double.Valid.negate {x : Double} (hx : x.Valid) : x.negate.Valid := by
  cases x with
  | zero neg => trivial
  | num q =>
    obtain ⟨hne, hrn⟩ := hx
    exact ⟨neg_ne_zero.mpr hne, by rw [rn_neg, hrn]⟩

@[simp] theorem Double.toRat_round (neg : Bool) (q : ℚ) : (Double.round neg q).toRat = rn q := by
  unfold Double.round
  split_ifs with hq
  · rw [hq, rn_zero]
    rfl
  · rfl

@[simp] theorem Double.toRat_ofInt (n : ℤ) : (Double.ofInt n).toRat = n := by
  unfold Double.ofInt
  split_ifs with hn
  · rw [hn, Int.cast_zero]
    rfl
  · rfl

@[simp] theorem Double.toRat_mul (x y : Double) : (x.mul y).toRat = rn (x.toRat * y.toRat) := Double.toRat_round ..

@[simp] theorem Double.toRat_divBy (x : Double) (c : ℚ) : (x.divBy c).toRat = rn (x.toRat / c) :=
  Double.toRat_round ..

@[simp] theorem Double.toRat_negate (x : Double) : x.negate.toRat = -x.toRat := by
  cases x with
  | zero neg => exact neg_zero.symm
  | num q => rfl

theorem Double.toRat_add {x y : Double} (hx : x.Valid) (hy : y.Valid) : (x.add y).toRat = rn (x.toRat + y.toRat) := by
  cases x with
  | zero a =>
    change _ = rn (0 + y.toRat)
    rw [zero_add, hy.rn_toRat]
    cases y <;> rfl
  | num p =>
    cases y with
    | zero b =>
      change _ = rn (p + 0)
      rw [add_zero]
      exact hx.2.symm
    | num q => exact Double.toRat_round false (p + q)

theorem Double.toRat_sub {x y : Double} (hx : x.Valid) (hy : y.Valid) : (x.sub y).toRat = rn (x.toRat - y.toRat) := by
  rw [Double.sub, Double.toRat_add hx hy.negate, Double.toRat_negate, sub_eq_add_neg]

/-! ### Signs, of zeros too (R85) -/

@[simp] theorem Double.isNeg_ofInt (n : ℤ) : (Double.ofInt n).isNeg = decide (n < 0) := by
  unfold Double.ofInt
  split_ifs with hn
  · simp [hn, Double.isNeg]
  · simp [Double.isNeg]

theorem Double.isNeg_eq_false_of_pos {x : Double} (hx : 0 < x.toRat) : x.isNeg = false := by
  cases x with
  | zero neg => exact absurd hx (lt_irrefl 0)
  | num q => exact decide_eq_false hx.not_gt

theorem Double.round_eq_negZero_iff {neg : Bool} {q : ℚ} : Double.round neg q = .zero true ↔ q = 0 ∧ neg = true := by
  unfold Double.round
  split_ifs with hq <;> simp [hq]

theorem Double.mul_eq_negZero_iff {x y : Double} :
    x.mul y = .zero true ↔ x.toRat * y.toRat = 0 ∧ x.isNeg ≠ y.isNeg := by
  rw [Double.mul, Double.round_eq_negZero_iff, bne_iff_ne]

/-- The sum of two values is `-0` only as the sum of two `-0`. -/
theorem Double.add_eq_negZero_iff {x y : Double} : x.add y = .zero true ↔ x = .zero true ∧ y = .zero true := by
  cases x with
  | zero a => cases y <;> simp [Double.add]
  | num p =>
    cases y with
    | zero b => simp [Double.add]
    | num q => simp [Double.add, Double.round_eq_negZero_iff]

/-- Only `-0` is a negative value that stands for 0. -/
theorem Double.Valid.isNeg_iff_of_zero {x : Double} (hx : x.Valid) (h0 : x.toRat = 0) :
    x.isNeg = true ↔ x = .zero true := by
  cases x with
  | zero neg => simp [Double.isNeg]
  | num q => exact absurd h0 hx.1

theorem Double.valid_add {x y : Double} (hx : x.Valid) (hy : y.Valid) : (x.add y).Valid := by
  cases x with
  | zero a => cases y with
    | zero b => trivial
    | num q => exact hy
  | num p => cases y with
    | zero b => exact hx
    | num q => exact Double.valid_round ..

theorem Double.valid_sub {x y : Double} (hx : x.Valid) (hy : y.Valid) : (x.sub y).Valid :=
  Double.valid_add hx hy.negate

/-! ### The difference at the scale `2^k` (R75, R81 (1) to (3)) -/

theorem rn_intCast_div_of_lt {n : ℤ} (k : ℕ) (hn : |n| < 2 ^ 53) : rn (n / 2 ^ k) = n / 2 ^ k := by
  rw [rn_intCast_div, r53_of_lt (by rw [Int.abs_eq_natAbs] at hn; exact_mod_cast hn)]

/-- `raw / 2^(k+4) - dig_T1 / 2^k`, as MAS writes it. -/
def masDiffAt (k : ℕ) (raw : BitVec 20) (t1 : BitVec 16) : Double :=
  ((Double.ofInt raw.toNat).divBy (2 ^ (k + 4))).sub ((Double.ofInt t1.toNat).divBy (2 ^ k))

theorem masVar1_eq (raw : BitVec 20) (c : Coeffs) :
    masVar1 raw c = (masDiffAt 10 raw c.t1).mul (.ofInt c.t2.toInt) := by
  rw [masVar1, masDiffAt]
  norm_num

theorem masDiff_eq (raw : BitVec 20) (c : Coeffs) : masDiff raw c = masDiffAt 13 raw c.t1 := by
  rw [masDiff, masDiffAt]
  norm_num

theorem toRat_masDiffAt (k : ℕ) (raw : BitVec 20) (t1 : BitVec 16) :
    (masDiffAt k raw t1).toRat = stageD raw t1 / 2 ^ (k + 4) := by
  have hraw : |(raw.toNat : ℤ)| < 2 ^ 53 := by rw [Nat.abs_cast]; omega
  have ht1 : |(t1.toNat : ℤ)| < 2 ^ 53 := by rw [Nat.abs_cast]; omega
  have hd : |stageD raw t1| < 2 ^ 53 := (abs_stageD_le raw t1).trans_lt (by norm_num)
  have hdiff : ((raw.toNat : ℤ) : ℚ) / 2 ^ (k + 4) - ((t1.toNat : ℤ) : ℚ) / 2 ^ k = stageD raw t1 / 2 ^ (k + 4) := by
    rw [stageD, pow_add]
    push_cast
    field_simp
    ring
  rw [masDiffAt, Double.toRat_sub (Double.valid_divBy ..) (Double.valid_divBy ..), Double.toRat_divBy,
    Double.toRat_divBy, Double.toRat_ofInt, Double.toRat_ofInt, rn_intCast_div_of_lt _ hraw,
    rn_intCast_div_of_lt _ ht1, hdiff, rn_intCast_div_of_lt _ hd]

/-- A difference that is zero is `+0`, because its first operand is not `-0`. -/
theorem isNeg_masDiffAt_of_zero (k : ℕ) {raw : BitVec 20} {t1 : BitVec 16} (hd : stageD raw t1 = 0) :
    (masDiffAt k raw t1).isNeg = false := by
  have h0 : (masDiffAt k raw t1).toRat = 0 := by rw [toRat_masDiffAt, hd, Int.cast_zero, zero_div]
  have hvalid : (masDiffAt k raw t1).Valid := Double.valid_sub (Double.valid_divBy ..) (Double.valid_divBy ..)
  rw [← Bool.not_eq_true, hvalid.isNeg_iff_of_zero h0, masDiffAt, Double.sub, Double.add_eq_negZero_iff]
  rintro ⟨hfirst, -⟩
  rw [Double.divBy, Double.round_eq_negZero_iff, Double.isNeg_ofInt, decide_eq_true_iff] at hfirst
  exact absurd hfirst.2 (Int.natCast_nonneg _).not_gt

/-! ### The four lines compute the stages (R81 (4) to (9)) -/

theorem toRat_masVar1 (raw : BitVec 20) (c : Coeffs) :
    (masVar1 raw c).toRat = stageP1 (stageD raw c.t1) c.t2 / 2 ^ 14 := by
  have hP1 : |stageP1 (stageD raw c.t1) c.t2| < 2 ^ 53 :=
    (abs_stageP1_le (abs_stageD_le raw c.t1) c.t2).trans_lt (by norm_num)
  rw [masVar1_eq, Double.toRat_mul, toRat_masDiffAt, Double.toRat_ofInt, div_mul_eq_mul_div, ← Int.cast_mul]
  exact rn_intCast_div_of_lt 14 hP1

theorem toRat_masSquare (raw : BitVec 20) (c : Coeffs) :
    ((masDiff raw c).mul (masDiff raw c)).toRat = stageQ (stageD raw c.t1) / 2 ^ 34 := by
  have hQ : |stageQ (stageD raw c.t1)| < 2 ^ 53 :=
    calc |stageQ (stageD raw c.t1)| = |stageD raw c.t1| * |stageD raw c.t1| := abs_mul ..
      _ ≤ 1048575 * 1048575 := by gcongr <;> exact abs_stageD_le raw c.t1
      _ < 2 ^ 53 := by norm_num
  rw [Double.toRat_mul, masDiff_eq, toRat_masDiffAt, div_mul_div_comm, ← Int.cast_mul, ← pow_add]
  exact rn_intCast_div_of_lt 34 hQ

theorem toRat_masVar2 (raw : BitVec 20) (c : Coeffs) :
    (masVar2 raw c).toRat = r53 (stageP2 (stageD raw c.t1) c.t3) / 2 ^ 34 := by
  rw [masVar2, Double.toRat_mul, toRat_masSquare, Double.toRat_ofInt, div_mul_eq_mul_div, ← Int.cast_mul]
  exact rn_intCast_div _ 34

theorem valid_masVar1 (raw : BitVec 20) (c : Coeffs) : (masVar1 raw c).Valid := Double.valid_round ..

theorem valid_masVar2 (raw : BitVec 20) (c : Coeffs) : (masVar2 raw c).Valid := Double.valid_round ..

theorem valid_masSum (raw : BitVec 20) (c : Coeffs) : (masSum raw c).Valid :=
  Double.valid_add (valid_masVar1 raw c) (valid_masVar2 raw c)

theorem toRat_masSum (raw : BitVec 20) (c : Coeffs) :
    (masSum raw c).toRat = stageS (stageD raw c.t1) c.t2 c.t3 / 2 ^ 34 := by
  rw [masSum, Double.toRat_add (valid_masVar1 raw c) (valid_masVar2 raw c), toRat_masVar1, toRat_masVar2, stageN_div,
    rn_intCast_div, stageS]

/-! ### The one case of `-0` (R85) -/

/-- The square is positive or `+0`. -/
theorem isNeg_masSquare (raw : BitVec 20) (c : Coeffs) : ((masDiff raw c).mul (masDiff raw c)).isNeg = false := by
  have hvalid := Double.valid_mul (masDiff raw c) (masDiff raw c)
  have hsq : 0 ≤ ((masDiff raw c).mul (masDiff raw c)).toRat := by
    rw [Double.toRat_mul]
    exact rn_nonneg (mul_self_nonneg _)
  obtain hpos | hzero := hsq.lt_or_eq
  · exact Double.isNeg_eq_false_of_pos hpos
  · rw [← Bool.not_eq_true, hvalid.isNeg_iff_of_zero hzero.symm, Double.mul_eq_negZero_iff]
    exact fun h => h.2 rfl

theorem masVar2_eq_negZero_iff (raw : BitVec 20) (c : Coeffs) :
    masVar2 raw c = .zero true ↔ stageD raw c.t1 = 0 ∧ c.t3.toInt < 0 := by
  have hsign : false ≠ decide (c.t3.toInt < 0) ↔ c.t3.toInt < 0 := by simp
  have hzero (ht3 : c.t3.toInt < 0) :
      (stageQ (stageD raw c.t1) : ℚ) / 2 ^ 34 * c.t3.toInt = 0 ↔ stageD raw c.t1 = 0 := by simp [stageQ, ht3.ne]
  rw [masVar2, Double.mul_eq_negZero_iff, isNeg_masSquare, toRat_masSquare, Double.toRat_ofInt, Double.isNeg_ofInt,
    hsign]
  exact and_congr_left hzero

theorem masVar1_eq_negZero_iff {raw : BitVec 20} {c : Coeffs} (hd : stageD raw c.t1 = 0) :
    masVar1 raw c = .zero true ↔ c.t2.toInt < 0 := by
  rw [masVar1_eq, Double.mul_eq_negZero_iff, isNeg_masDiffAt_of_zero 10 hd, toRat_masDiffAt, hd, Double.isNeg_ofInt]
  simp

theorem masSum_eq_negZero_iff (raw : BitVec 20) (c : Coeffs) :
    masSum raw c = .zero true ↔ stageD raw c.t1 = 0 ∧ c.t2.toInt < 0 ∧ c.t3.toInt < 0 := by
  rw [masSum, Double.add_eq_negZero_iff, masVar2_eq_negZero_iff]
  constructor
  · rintro ⟨h1, hd, ht3⟩
    exact ⟨hd, (masVar1_eq_negZero_iff hd).mp h1, ht3⟩
  · rintro ⟨hd, ht2, ht3⟩
    exact ⟨(masVar1_eq_negZero_iff hd).mpr ht2, hd, ht3⟩

/-! ### The equality (R81) -/

theorem masFine_eq (raw : BitVec 20) (c : Coeffs) :
    masFine raw c = stageConv (stageS (stageD raw c.t1) c.t2 c.t3) := by
  rw [masFine, toRat_masSum, truncToInt_div]

theorem masCelsius_eq (raw : BitVec 20) (c : Coeffs) : masCelsius raw c = compOut raw c := by
  have hsum := toRat_masSum raw c
  rw [masCelsius, Double.divBy, Double.round, hsum]
  by_cases hS : stageS (stageD raw c.t1) c.t2 c.t3 = 0
  · have h0 : (masSum raw c).toRat = 0 := by rw [hsum, hS, Int.cast_zero, zero_div]
    have hsign := ((valid_masSum raw c).isNeg_iff_of_zero h0).trans (masSum_eq_negZero_iff raw c)
    rw [if_pos (by simp [hS]), compOut_of_eq_zero hS, zeroOut, ← Bool.decide_coe (masSum raw c).isNeg]
    simp only [hsign]
    rfl
  · rw [if_neg (by simp [hS]), compOut_of_ne_zero hS]

/-- Settles O29: every operation but three is exact, those three are the roundings of the stages, and the signs of the
zeros agree. -/
theorem stageFormEqualsMasFormula : Obligations.StageFormEqualsMasFormula := by
  unfold Obligations.StageFormEqualsMasFormula
  exact fun raw c => ⟨(toInt_compFine raw c).trans (masFine_eq raw c).symm, (masCelsius_eq raw c).symm⟩

end Sys2Proof.Machine
end

section
/-!
SUPPORT. `COMPP` and `COMPH` (42_compensation.md R91, R92): one computation over the feature, the sample and the
parameter function, which each of the two commands ends into its own register.
-/
namespace Sys2Proof.Machine

/-- What both commands compute before they write: the guards in the order of R91, then the parameter function. -/
def State.opaqueResult (s : State) (has : Bool) (raw : Option (BitVec 20))
    (comp : BitVec 20 → List Byte → BitVec 32 → BitVec 64) : Except StatusCode (BitVec 64) := do
  let table ← s.requireReady
  requireFeature has
  let r ← requireSample raw
  let fine ← s.requireFine
  pure (comp r table.coefx fine)

theorem exec_compP_eq (s : State) : exec .compP s =
    s.finish ((fun p => { s with outP := some p }) <$> s.opaqueResult s.params.hasP s.rawP Config.compP) := by
  simp only [State.opaqueResult, map_bind, map_pure]
  rfl

theorem exec_compH_eq (s : State) : exec .compH s =
    s.finish ((fun h => { s with outH := some h }) <$> s.opaqueResult s.params.hasH s.rawH Config.compH) := by
  simp only [State.opaqueResult, map_bind, map_pure]
  rfl

/-! ### The guards in their order, and the success -/

section Guards

variable {s : State} {c : Coeffs} {has : Bool} {raw : Option (BitVec 20)} {r : BitVec 20} {f : BitVec 32}
  (comp : BitVec 20 → List Byte → BitVec 32 → BitVec 64)

theorem opaqueResult_notReady (hs : ∀ c, s.sess ≠ .ready c) :
    s.opaqueResult has raw comp = .error .notReady := by
  simp [State.opaqueResult, requireReady_notReady hs, bind, Except.bind]

theorem opaqueResult_unimpl (hc : s.sess = .ready c) (hhas : has = false) :
    s.opaqueResult has raw comp = .error .unimpl := by
  simp [State.opaqueResult, requireReady_ok hc, requireFeature, hhas, bind, Except.bind]

theorem opaqueResult_noSample (hc : s.sess = .ready c) (hhas : has = true) (hraw : raw = none) :
    s.opaqueResult has raw comp = .error .noSample := by
  simp [State.opaqueResult, requireReady_ok hc, requireFeature, requireSample, hhas, hraw, bind, Except.bind]

theorem opaqueResult_noFine (hc : s.sess = .ready c) (hhas : has = true) (hraw : raw = some r) (hf : s.fine = none) :
    s.opaqueResult has raw comp = .error .noFine := by
  simp [State.opaqueResult, requireReady_ok hc, requireFeature, requireSample, State.requireFine, hhas, hraw, hf, bind,
    Except.bind]

theorem opaqueResult_ok (hc : s.sess = .ready c) (hhas : has = true) (hraw : raw = some r) (hf : s.fine = some f) :
    s.opaqueResult has raw comp = .ok (comp r c.coefx f) := by
  simp [State.opaqueResult, requireReady_ok hc, requireFeature, requireSample, State.requireFine, hhas, hraw, hf, bind,
    Except.bind, pure, Except.pure]

end Guards

/-- Settles O27: each case of the computation, ended into `OUT_P`. -/
theorem compPWritesThePressure : Obligations.CompPWritesThePressure := by
  unfold Obligations.CompPWritesThePressure
  refine ⟨by decide, fun s c raw f hc hp hraw hf => ?_, fun s hs => ?_, fun s c hc hp => ?_,
    fun s c hc hp hraw => ?_, fun s c raw hc hp hraw hf => ?_⟩ <;> rw [exec_compP_eq]
  · rw [opaqueResult_ok _ hc hp hraw hf]
    rfl
  · rw [opaqueResult_notReady _ hs]
    rfl
  · rw [opaqueResult_unimpl _ hc hp]
    rfl
  · rw [opaqueResult_noSample _ hc hp hraw]
    rfl
  · rw [opaqueResult_noFine _ hc hp hraw hf]
    rfl

/-- Settles O28: each case of the computation, ended into `OUT_H`. -/
theorem compHWritesTheHumidity : Obligations.CompHWritesTheHumidity := by
  unfold Obligations.CompHWritesTheHumidity
  refine ⟨by decide, fun s c raw f hc hh hraw hf => ?_, fun s hs => ?_, fun s c hc hh => ?_,
    fun s c hc hh hraw => ?_, fun s c raw hc hh hraw hf => ?_⟩ <;> rw [exec_compH_eq]
  · rw [opaqueResult_ok _ hc hh hraw hf]
    rfl
  · rw [opaqueResult_notReady _ hs]
    rfl
  · rw [opaqueResult_unimpl _ hc hh]
    rfl
  · rw [opaqueResult_noSample _ hc hh hraw]
    rfl
  · rw [opaqueResult_noFine _ hc hh hraw hf]
    rfl

end Sys2Proof.Machine
end

section
/-!
SUPPORT. The session commands `NOP`, `OPEN` and `CLOSE` (43_session.md R95 to R97), and the transition table of `SESS`
(R98): the cell of a success holds the next session's code, and the cell of a fault is that fault.
-/
namespace Sys2Proof.Machine

/-! ### `NOP` and `OPEN` (R95, R96) -/

/-- Settles O14: the command ends in the state it began in. -/
theorem nopChangesOnlyLast : Obligations.NopChangesOnlyLast := by
  unfold Obligations.NopChangesOnlyLast
  exact ⟨by decide, fun _ => rfl⟩

theorem exec_openSession_ok {s : State} (hs : s.sess = .closed) :
    exec .openSession s = .next (State.complete { s with sess := .configuring }) := by
  simp [exec, execOpen, State.requireClosed, hs, bind, Except.bind, pure, Except.pure]

theorem exec_openSession_opened {s : State} (hs : s.sess ≠ .closed) :
    exec .openSession s = .next (s.raise .opened) := by
  obtain ⟨hclosed, -⟩ | ⟨-, hguard⟩ := requireClosed_cases s
  · exact absurd hclosed hs
  · simp [exec, execOpen, hguard, bind, Except.bind]

/-- Settles O15: the guard on Closed decides between the success and the fault. -/
theorem openBeginsASession : Obligations.OpenBeginsASession := by
  unfold Obligations.OpenBeginsASession
  exact ⟨by decide, fun s => exec_openSession_ok, fun s => exec_openSession_opened⟩

/-! ### The cells of the transition table (R98) -/

@[simp] theorem Session.code_eq_zero_iff {x : Session} : x.code = 0#2 ↔ x = .closed := by
  cases x <;> simp [Session.code]

@[simp] theorem Session.code_eq_two_iff {x : Session} : x.code = 2#2 ↔ ∃ c, x = .ready c := by
  cases x <;> simp [Session.code]

/-- In Closed the table has the fault `E_NOTREADY` for every command but three. -/
theorem sessionCell_closed {i : Instr} (hi : i ∉ [Instr.nop, .openSession, .closeSession]) :
    sessionCell i 0 = .error .notReady := by
  cases i with
  | nop | openSession | closeSession => simp at hi
  | _ => rfl

/-- A success is in a cell that names a next state, and leads there. -/
theorem Succeeds.sessionCell_eq {i : Instr} {s t : State} (h : Succeeds i s t) :
    sessionCell i s.sess.code = .ok t.sess.code := by
  cases i with
  | nop | closeSession => subst h; rfl
  | openSession => obtain ⟨hc, rfl⟩ := h; rw [hc]; rfl
  | rxb off imm8 => obtain ⟨hc, -, rfl⟩ := h; exact if_neg (mt Session.code_eq_zero_iff.mp hc)
  | rxclr => obtain ⟨hc, rfl⟩ := h; exact if_neg (mt Session.code_eq_zero_iff.mp hc)
  | ldcal off => obtain ⟨hc, -, b, -, -, rfl⟩ := h; rw [hc]; rfl
  | asmT off | asmP off | asmH off =>
    obtain ⟨⟨c, hc⟩, -, b, -, rfl⟩ := h
    simp [sessionCell, hc, Session.code]
  | compT => obtain ⟨c, raw, hc, -, rfl⟩ := h; simp [sessionCell, hc, Session.code]
  | compP | compH => obtain ⟨c, raw, f, hc, -, -, -, rfl⟩ := h; simp [sessionCell, hc, Session.code]

/-- The cells of `ASM` and of the compensation commands: the fault `E_NOTREADY` outside Ready, and no other. -/
theorem readyCell_eq_error {s : State} {n : BitVec 2} {e : StatusCode}
    (h : (if s.sess.code = 2 then .ok n else .error .notReady : Except StatusCode (BitVec 2)) = .error e) :
    (∀ c, s.sess ≠ .ready c) ∧ .notReady = e := by
  simpa [ite_eq_iff] using h

/-- Where the cell names a fault, the command raises it, whatever the rest of the state. -/
theorem exec_of_sessionCell_error {i : Instr} {s : State} {e : StatusCode}
    (h : sessionCell i s.sess.code = .error e) : exec i s = .next (s.raise e) := by
  cases i with
  | nop | closeSession => cases h
  | openSession =>
    obtain ⟨hopen, rfl⟩ : s.sess ≠ .closed ∧ .opened = e := by
      simpa [sessionCell, ite_eq_iff] using h
    exact exec_openSession_opened hopen
  | rxb off imm8 =>
    obtain ⟨hclosed, rfl⟩ : s.sess = .closed ∧ .notReady = e := by
      simpa [sessionCell, ite_eq_iff] using h
    exact exec_rxb_notReady off imm8 hclosed
  | rxclr =>
    obtain ⟨hclosed, rfl⟩ : s.sess = .closed ∧ .notReady = e := by
      simpa [sessionCell, ite_eq_iff] using h
    exact exec_rxclr_notReady hclosed
  | ldcal off =>
    cases hs : s.sess with
    | closed => rw [hs] at h; cases h; exact exec_ldcal_notReady off hs
    | configuring => rw [hs] at h; cases h
    | ready c => rw [hs] at h; cases h; exact exec_ldcal_locked off hs
  | asmT off | asmP off | asmH off =>
    obtain ⟨hs, rfl⟩ := readyCell_eq_error h
    exact exec_asm_of_assemble_error (by simp) (assemble_notReady off hs)
  | compT =>
    obtain ⟨hs, rfl⟩ := readyCell_eq_error h
    exact exec_compT_notReady hs
  | compP =>
    obtain ⟨hs, rfl⟩ := readyCell_eq_error h
    rw [exec_compP_eq, opaqueResult_notReady _ hs]
    rfl
  | compH =>
    obtain ⟨hs, rfl⟩ := readyCell_eq_error h
    rw [exec_compH_eq, opaqueResult_notReady _ hs]
    rfl

/-- Settles O17: a success leads where its cell says, and a cell's fault is the command's. -/
theorem sessionFollowsTheTransitionTable : Obligations.SessionFollowsTheTransitionTable := by
  unfold Obligations.SessionFollowsTheTransitionTable
  refine ⟨fun i s t h => ?command, fun s w rest t k hin hdecode h => ?illegal, fun s rest t hin h => ?reset⟩
  case command =>
    cases hcell : sessionCell i s.sess.code with
    | error e =>
      obtain rfl : s.raise e = t := Host.Outcome.next.inj ((exec_of_sessionCell_error hcell).symm.trans h)
      exact ⟨rfl, rfl⟩
    | ok n =>
      obtain ⟨e, he, rfl⟩ | hs := exec_cases h
      · exact .inr ⟨he, rfl⟩
      · obtain ⟨-, -, -, hok⟩ := hs.frame
        exact .inl ⟨hok, Except.ok.inj (hs.sessionCell_eq.symm.trans hcell)⟩
  case illegal =>
    obtain rfl := Host.Outcome.next.inj ((step_illegal hin hdecode).symm.trans h)
    exact ⟨rfl, rfl⟩
  case reset =>
    obtain rfl := Host.Outcome.next.inj ((step_reset hin).symm.trans h)
    rfl

/-! ### `CLOSE` (R97) -/

theorem exec_closeSession (s : State) : exec .closeSession s = .next s.forgetSession.complete := rfl

theorem noValidFlag_forgetSession (s : State) : NoValidFlag s.forgetSession :=
  noValidFlag_iff.mpr ⟨rfl, rfl, rfl, rfl, rfl, rfl, rfl⟩

/-- The session owned everything that reset clears, but for `STATUS`. -/
theorem forgetSession_eq_reset {s : State} (hbuf : ∀ c ∈ s.buf, c.1 < s.params.bufSize) : s.forgetSession =
    { State.reset with params := s.params, inputs := s.inputs, last := s.last, err := s.err } := by
  simp [State.forgetSession, State.newCycle, State.memInvalidate, State.reset, dropBytes_all hbuf]

/-- In Closed there is nothing to forget (10_state.md R25, (I-c)). -/
theorem StateInv.forgetSession_of_closed {s : State} (h : StateInv s) (hs : s.sess = .closed) :
    s.forgetSession = s := by
  obtain ⟨hrawT, hrawP, hrawH, hfine, houtT, houtP, houtH⟩ := noValidFlag_iff.mp (h.closedFlags hs)
  rw [forgetSession_eq_reset h.bufRange]
  have hbuf := h.closedBuf hs
  cases s
  simp only [State.reset, State.mk.injEq, true_and]
  exact ⟨hs.symm, hrawT.symm, hrawP.symm, hrawH.symm, hfine.symm, houtT.symm, houtP.symm, houtH.symm, hbuf.symm⟩

/-- Settles O16: what is forgotten is all that reset clears but `ERR`, and in Closed the table has `E_NOTREADY`. -/
theorem closeForgetsTheSession : Obligations.CloseForgetsTheSession := by
  unfold Obligations.CloseForgetsTheSession
  refine ⟨by decide, fun s => ⟨_, exec_closeSession s, rfl, rfl, noValidFlag_forgetSession s, fun a ha => ?buf, rfl,
    rfl⟩, fun s hbuf => ?reset, fun s hinv hs => ?again, fun i s t h hi => ?after⟩
  case buf => exact (Succeeds.bv_eq (i := .closeSession) rfl a).trans (by simp [byteAfter, ha])
  case reset => rw [exec_closeSession, forgetSession_eq_reset hbuf]; rfl
  case again => rw [exec_closeSession, hinv.forgetSession_of_closed hs]; rfl
  case after =>
    obtain rfl : s.forgetSession.complete = t := Host.Outcome.next.inj h
    exact exec_of_sessionCell_error (sessionCell_closed hi)

end Sys2Proof.Machine
end

section
/-!
SUPPORT. How a command word ends (60_exceptions.md): every step answers a next state (R103), in success or in a fault
that writes `LAST` and `ERR` only (R105), and the fault is the first of the command's causes in the order of R115.
-/
namespace Sys2Proof.Machine

/-! ### Every step answers a next state (R103, R105) -/

theorem exec_next (i : Instr) (s : State) : ∃ t, exec i s = .next t := by
  obtain ⟨r, hr, -⟩ := exec_relabel i s
  rw [hr]
  exact finish_next s r

/-- Settles O9: each of the four things a step can do ends in a next state. -/
theorem everyStepAnswersANextState : Obligations.EveryStepAnswersANextState := by
  unfold Obligations.EveryStepAnswersANextState
  intro s
  cases hin : s.inputs with
  | nil => exact ⟨_, step_idle hin⟩
  | cons x rest =>
    cases x with
    | reset => exact ⟨_, step_reset hin⟩
    | command w =>
      cases hdecode : decode w with
      | error k => exact ⟨_, step_illegal hin hdecode⟩
      | ok i =>
        rw [step_command hin hdecode]
        exact exec_next i _

/-- Settles O6, by the model's rule for a step with nothing presented. -/
theorem stepWaitsWithoutInput : Obligations.StepWaitsWithoutInput := by
  unfold Obligations.StepWaitsWithoutInput
  exact fun s => step_idle

/-- Settles O11: an illegal word raises its fault, and a command raises one or succeeds within its frame. -/
theorem commandEndsInSuccessOrFault : Obligations.CommandEndsInSuccessOrFault := by
  unfold Obligations.CommandEndsInSuccessOrFault
  intro s w rest t hin h
  cases hdecode : decode w with
  | error k =>
    obtain rfl := Host.Outcome.next.inj ((step_illegal hin hdecode).symm.trans h)
    exact .inr ⟨by simp, rfl⟩
  | ok i =>
    obtain ⟨e, he, rfl⟩ | hs := exec_cases ((step_command hin hdecode).symm.trans h)
    · exact .inr ⟨he, rfl⟩
    · obtain ⟨-, -, herr, hok⟩ := hs.frame
      exact .inl ⟨hok, herr⟩

/-! ### Causes tested one after another (R115) -/

/-- Of the causes in `l`, tested in order, command `i` begun in `s` reports the first that applies, and succeeds when
none does. -/
def ReportsFirstOf (l : List StatusCode) (i : Instr) (s : State) : Prop :=
  (∀ e, l.find? (fun e => faultCause e i s) = some e → exec i s = .next (s.raise e)) ∧
  (l.find? (fun e => faultCause e i s) = none → ∃ t, exec i s = .next t ∧ t.last = .ok ∧ t.err = s.err)

theorem ReportsFirstOf.nil {i : Instr} {s u : State} (h : exec i s = .next u.complete) (herr : u.err = s.err) :
    ReportsFirstOf [] i s :=
  ⟨fun _ hfind => by simp at hfind, fun _ => ⟨u.complete, h, rfl, herr⟩⟩

theorem ReportsFirstOf.cons {e : StatusCode} {l : List StatusCode} {i : Instr} {s : State}
    (hcause : faultCause e i s = true → exec i s = .next (s.raise e))
    (hrest : faultCause e i s = false → ReportsFirstOf l i s) : ReportsFirstOf (e :: l) i s := by
  cases h : faultCause e i s with
  | true =>
    refine ⟨fun x hx => ?_, fun hnone => by simp [h] at hnone⟩
    obtain rfl : e = x := by simpa [h] using hx
    exact hcause h
  | false => simpa [ReportsFirstOf, h] using hrest h

/-- A command has no cause but those R115 lists for it, which stand there in the order of all causes. -/
theorem find_faultPriority_eq (i : Instr) (s : State) :
    faultPriority.find? (fun e => faultCause e i s) = (possibleFaults i).find? (fun e => faultCause e i s) := by
  cases i <;> rfl

/-! ### The causes that a session and an access give (R107, R110, R111) -/

theorem table_eq_none_iff {s : State} : s.table = none ↔ ∀ c, s.sess ≠ .ready c := by
  cases h : s.sess <;> simp [State.table, h]

theorem exists_ready_of_table_ne_none {s : State} (h : s.table ≠ none) : ∃ c, s.sess = .ready c := by
  simpa [table_eq_none_iff] using h

theorem sess_eq_configuring {s : State} (hopen : s.sess ≠ .closed) (htable : s.table = none) :
    s.sess = .configuring := by
  cases h : s.sess with
  | closed => exact absurd h hopen
  | configuring => rfl
  | ready c => exact absurd h (table_eq_none_iff.mp htable c)

section Access

variable {i : Instr} {s : State} {a n : Nat} (h : accessOf i s = some (a, n))
include h

theorem outOfRange_eq_true_iff : outOfRange i s = true ↔ s.params.bufSize < a + n := by
  simp [outOfRange, h]

theorem outOfRange_eq_false_iff : outOfRange i s = false ↔ a + n ≤ s.params.bufSize := by
  simp [outOfRange, h]

theorem someStale_eq_true_iff : someStale i s = true ↔ ∃ k < n, s.bv (a + k) = false := by
  simp [someStale, h]

theorem someStale_eq_false_iff : someStale i s = false ↔ ∀ k < n, s.bv (a + k) = true := by
  simp [someStale, h]

end Access

/-! ### The tests of each command, in the order of its pseudocode -/

theorem openSession_reportsFirst (s : State) : ReportsFirstOf [.opened] .openSession s := by
  refine .cons (fun h => ?opened) fun h => ?success
  case opened => exact exec_openSession_opened (by simpa [faultCause] using h)
  case success => exact .nil (exec_openSession_ok (by simpa [faultCause] using h)) rfl

theorem rxb_reportsFirst (off imm8 : Byte) (s : State) : ReportsFirstOf [.notReady, .range] (.rxb off imm8) s := by
  refine .cons (fun h => ?notReady) fun h => ?_
  case notReady => exact exec_rxb_notReady off imm8 (by simpa [faultCause] using h)
  have hopen : s.sess ≠ .closed := by simpa [faultCause] using h
  have hacc : accessOf (.rxb off imm8) s = some (off.toNat, 1) := rfl
  refine .cons (fun h => ?range) fun h => ?success
  case range => exact exec_rxb_range imm8 hopen (Nat.le_of_lt_succ ((outOfRange_eq_true_iff hacc).mp h))
  case success => exact .nil (exec_rxb_ok imm8 hopen ((outOfRange_eq_false_iff hacc).mp h)) rfl

theorem rxclr_reportsFirst (s : State) : ReportsFirstOf [.notReady] .rxclr s := by
  refine .cons (fun h => ?notReady) fun h => ?success
  case notReady => exact exec_rxclr_notReady (by simpa [faultCause] using h)
  case success => exact .nil (exec_rxclr_ok (by simpa [faultCause] using h)) rfl

theorem ldcal_reportsFirst (off : Byte) (s : State) :
    ReportsFirstOf [.notReady, .locked, .range, .stale] (.ldcal off) s := by
  refine .cons (fun h => ?notReady) fun h => ?_
  case notReady => exact exec_ldcal_notReady off (by simpa [faultCause] using h)
  have hopen : s.sess ≠ .closed := by simpa [faultCause] using h
  refine .cons (fun h => ?locked) fun h => ?_
  case locked =>
    obtain ⟨c, hc⟩ := exists_ready_of_table_ne_none (s := s) (by simpa [faultCause] using h)
    exact exec_ldcal_locked off hc
  have hexec := exec_ldcal_configuring off (sess_eq_configuring hopen (by simpa [faultCause] using h))
  have hacc : accessOf (.ldcal off) s = some (off.toNat, s.params.calLen) := rfl
  refine .cons (fun h => ?range) fun hin => ?_
  case range =>
    rw [hexec, memRead_range ((outOfRange_eq_true_iff hacc).mp h)]
    rfl
  replace hin : outOfRange (.ldcal off) s = false := hin
  have hfit := (outOfRange_eq_false_iff hacc).mp hin
  refine .cons (fun h => ?stale) fun h => ?success
  case stale =>
    obtain ⟨k, hk, hbv⟩ := (someStale_eq_true_iff hacc).mp (by simpa [faultCause, hin] using h)
    rw [hexec, memRead_stale hfit hk hbv]
    rfl
  case success =>
    have hbv := (someStale_eq_false_iff hacc).mp (by simpa [faultCause, hin] using h)
    obtain ⟨b, hread, -, -⟩ := memRead_ok hfit hbv
    rw [hread] at hexec
    exact .nil hexec rfl

/-- Each form of `ASM` succeeds with the sample of the part they share. -/
theorem exec_asm_of_assemble_ok {i : Instr} {s u : State} {off : Byte} {raw : BitVec 20}
    (hi : i ∈ [Instr.asmT off, .asmP off, .asmH off]) (h : s.assemble off = .ok (raw, u)) :
    ∃ v : State, exec i s = .next v.complete ∧ v.err = u.err := by
  replace hi : i = .asmT off ∨ i = .asmP off ∨ i = .asmH off := by simpa using hi
  obtain rfl | rfl | rfl := hi
  · exact ⟨{ u.newCycle with rawT := some raw }, by rw [exec, execAsmT, h]; rfl, rfl⟩
  · exact ⟨{ u with rawP := some raw }, by rw [exec, execAsmP, h]; rfl, rfl⟩
  · exact ⟨{ u with rawH := some raw }, by rw [exec, execAsmH, h]; rfl, rfl⟩

theorem asm_causes {i : Instr} {off : Byte} (hi : i ∈ [Instr.asmT off, .asmP off, .asmH off]) (s : State) :
    faultCause .notReady i s = decide (s.table = none) ∧ accessOf i s = some (off.toNat, 3) ∧
    faultCause .stale i s = (!outOfRange i s && someStale i s) := by
  replace hi : i = .asmT off ∨ i = .asmP off ∨ i = .asmH off := by simpa using hi
  obtain rfl | rfl | rfl := hi <;> exact ⟨rfl, rfl, rfl⟩

theorem asm_reportsFirst {i : Instr} {off : Byte} (hi : i ∈ [Instr.asmT off, .asmP off, .asmH off]) (s : State) :
    ReportsFirstOf [.notReady, .range, .stale] i s := by
  obtain ⟨hnotReady, hacc, hstale⟩ := asm_causes hi s
  refine .cons (fun h => ?notReady) fun h => ?_
  case notReady =>
    have hs : s.table = none := by simpa [hnotReady] using h
    exact exec_asm_of_assemble_error hi (assemble_notReady off (table_eq_none_iff.mp hs))
  obtain ⟨c, hc⟩ := exists_ready_of_table_ne_none (s := s) (by simpa [hnotReady] using h)
  refine .cons (fun h => ?range) fun hin => ?_
  case range =>
    exact exec_asm_of_assemble_error hi (assemble_range hc ((outOfRange_eq_true_iff hacc).mp h))
  replace hin : outOfRange i s = false := hin
  have hfit := (outOfRange_eq_false_iff hacc).mp hin
  refine .cons (fun h => ?stale) fun h => ?success
  case stale =>
    obtain ⟨k, hk, hbv⟩ := (someStale_eq_true_iff hacc).mp (by simpa [hstale, hin] using h)
    exact exec_asm_of_assemble_error hi (assemble_stale hc hfit hk hbv)
  case success =>
    have hbv := (someStale_eq_false_iff hacc).mp (by simpa [hstale, hin] using h)
    obtain ⟨msb, hmsb⟩ := Option.isSome_iff_exists.mp (hbv 0 (by decide))
    obtain ⟨lsb, hlsb⟩ := Option.isSome_iff_exists.mp (hbv 1 (by decide))
    obtain ⟨xlsb, hxlsb⟩ := Option.isSome_iff_exists.mp (hbv 2 (by decide))
    obtain ⟨v, hv, herr⟩ := exec_asm_of_assemble_ok hi (assemble_ok hc hfit hmsb hlsb hxlsb)
    exact .nil hv herr

theorem compT_reportsFirst (s : State) : ReportsFirstOf [.notReady, .noSample] .compT s := by
  refine .cons (fun h => ?notReady) fun h => ?_
  case notReady => exact exec_compT_notReady (table_eq_none_iff.mp (by simpa [faultCause] using h))
  obtain ⟨c, hc⟩ := exists_ready_of_table_ne_none (s := s) (by simpa [faultCause] using h)
  refine .cons (fun h => ?noSample) fun h => ?success
  case noSample => exact exec_compT_noSample hc (by simpa [faultCause, State.rvT] using h)
  case success =>
    obtain ⟨raw, hraw⟩ := Option.isSome_iff_exists.mp (show s.rvT = true by simpa [faultCause] using h)
    exact .nil (exec_compT_ok hc hraw) rfl

/-- The tests of `COMPP` and `COMPH`, over the feature and the sample of the command. -/
theorem opaque_reportsFirst {i : Instr} {s : State} {has : Bool} {raw : Option (BitVec 20)}
    {comp : BitVec 20 → List Byte → BitVec 32 → BitVec 64} {write : BitVec 64 → State}
    (hexec : exec i s = s.finish (write <$> s.opaqueResult has raw comp)) (hwrite : ∀ v, (write v).err = s.err)
    (hnotReady : faultCause .notReady i s = decide (s.table = none)) (hunimpl : faultCause .unimpl i s = !has)
    (hnoSample : faultCause .noSample i s = !raw.isSome) (hnoFine : faultCause .noFine i s = !s.fine.isSome) :
    ReportsFirstOf [.notReady, .unimpl, .noSample, .noFine] i s := by
  refine .cons (fun h => ?notReady) fun h => ?_
  case notReady =>
    have hs : s.table = none := by simpa [hnotReady] using h
    rw [hexec, opaqueResult_notReady comp (table_eq_none_iff.mp hs)]
    rfl
  obtain ⟨c, hc⟩ := exists_ready_of_table_ne_none (s := s) (by simpa [hnotReady] using h)
  refine .cons (fun h => ?unimpl) fun h => ?_
  case unimpl =>
    rw [hexec, opaqueResult_unimpl comp hc (by simpa [hunimpl] using h)]
    rfl
  have hhas : has = true := by simpa [hunimpl] using h
  refine .cons (fun h => ?noSample) fun h => ?_
  case noSample =>
    rw [hexec, opaqueResult_noSample comp hc hhas (by simpa [hnoSample] using h)]
    rfl
  obtain ⟨r, hr⟩ := Option.isSome_iff_exists.mp (show raw.isSome = true by simpa [hnoSample] using h)
  refine .cons (fun h => ?noFine) fun h => ?success
  case noFine =>
    rw [hexec, opaqueResult_noFine comp hc hhas hr (by simpa [hnoFine] using h)]
    rfl
  case success =>
    obtain ⟨f, hf⟩ := Option.isSome_iff_exists.mp (show s.fine.isSome = true by simpa [hnoFine] using h)
    rw [opaqueResult_ok comp hc hhas hr hf] at hexec
    exact .nil hexec (hwrite _)

/-! ### The first cause is reported (R107 to R115) -/

/-- Each command tests the causes that R115 lists for it, in that order. -/
theorem exec_reportsFirst (i : Instr) (s : State) : ReportsFirstOf (possibleFaults i) i s := by
  cases i with
  | nop => exact .nil (u := s) rfl rfl
  | closeSession => exact .nil (exec_closeSession s) rfl
  | openSession => exact openSession_reportsFirst s
  | rxb off imm8 => exact rxb_reportsFirst off imm8 s
  | rxclr => exact rxclr_reportsFirst s
  | ldcal off => exact ldcal_reportsFirst off s
  | asmT off | asmP off | asmH off => exact asm_reportsFirst (off := off) (by simp) s
  | compT => exact compT_reportsFirst s
  | compP => exact opaque_reportsFirst (exec_compP_eq s) (fun _ => rfl) rfl rfl rfl rfl
  | compH => exact opaque_reportsFirst (exec_compH_eq s) (fun _ => rfl) rfl rfl rfl rfl

/-- Settles O12: the causes of R115 are those the command tests, and what it finds is one of them. -/
theorem firstCauseIsReported : Obligations.FirstCauseIsReported := by
  unfold Obligations.FirstCauseIsReported
  refine ⟨fun i s => ?first, fun i s t h => ?possible, fun s w rest k => step_illegal⟩
  case first =>
    obtain ⟨hfault, hsuccess⟩ := exec_reportsFirst i s
    rw [find_faultPriority_eq]
    cases hfind : (possibleFaults i).find? (fun e => faultCause e i s) with
    | some e => exact hfault e hfind
    | none => exact hsuccess hfind
  case possible =>
    obtain ⟨hfault, hsuccess⟩ := exec_reportsFirst i s
    cases hfind : (possibleFaults i).find? (fun e => faultCause e i s) with
    | some e =>
      obtain rfl := Host.Outcome.next.inj ((hfault e hfind).symm.trans h)
      exact .inr (List.mem_of_find?_eq_some hfind)
    | none =>
      obtain ⟨u, hu, hok, -⟩ := hsuccess hfind
      obtain rfl := Host.Outcome.next.inj (hu.symm.trans h)
      exact .inl hok

end Sys2Proof.Machine
end

section
/-!
SUPPORT. The run of a host's list of inputs (70_reset_and_hazards.md R136): step by step, what every step keeps holds at
its end, its list ends, and its `ERR` tells whether every command of it was `OK` (60_exceptions.md R117).
-/
namespace Sys2Proof.Machine

/-! ### A run of `k` steps -/

theorem run_succ_of_step {s t : State} (h : step s = .next t) (k : Nat) :
    Sys2Proof.core.run (k + 1) s = Sys2Proof.core.run k t := by
  have hcore : Sys2Proof.core.step s = .next t := h
  simp only [Host.Core.run, hcore]

/-- What every step keeps holds at the end of every run. -/
theorem run_keeps {P : State → Prop} (hkeeps : ∀ s t, P s → step s = .next t → P t) {k : Nat} {s t : State}
    (hs : P s) (hrun : Sys2Proof.core.run k s = .next t) : P t := by
  induction k generalizing s with
  | zero => obtain rfl : s = t := Host.Outcome.next.inj hrun; exact hs
  | succ k ih =>
    obtain ⟨s', hstep⟩ := everyStepAnswersANextState s
    exact ih (hkeeps s s' hs hstep) ((run_succ_of_step hstep k).symm.trans hrun)

/-- As many steps as there are inputs exhaust the inputs: each step answers a next state and takes one. -/
theorem run_exhausts_inputs {l : List HostInput} {s : State} (hin : s.inputs = l) :
    ∃ t, Sys2Proof.core.run l.length s = .next t ∧ t.inputs = [] := by
  induction l generalizing s with
  | nil => exact ⟨s, rfl, hin⟩
  | cons x rest ih =>
    obtain ⟨s', hstep⟩ := everyStepAnswersANextState s
    obtain ⟨-, htail⟩ := stepKeepsParamsAndTakesOneInput s s' hstep
    obtain ⟨t, hrun, hend⟩ := ih (htail.trans (by rw [hin, List.tail_cons]))
    exact ⟨t, (run_succ_of_step hstep rest.length).trans hrun, hend⟩

/-! ### Fault-free runs (R117) -/

/-- Each of the first `n` steps from `s` ends with `LAST = OK`. -/
def FirstStepsReportOk (n : Nat) (s : State) : Prop :=
  ∀ k < n, ∀ u : State, Sys2Proof.core.run (k + 1) s = .next u → u.last = .ok

theorem firstStepsReportOk_zero (s : State) : FirstStepsReportOk 0 s :=
  fun k hk => absurd hk k.not_lt_zero

theorem firstStepsReportOk_succ {s t : State} (hstep : step s = .next t) (n : Nat) :
    FirstStepsReportOk (n + 1) s ↔ t.last = .ok ∧ FirstStepsReportOk n t := by
  simp only [FirstStepsReportOk, Nat.forall_lt_succ_left, run_succ_of_step hstep]
  refine and_congr_left fun _ => ⟨fun h => h t rfl, fun hok u hu => ?_⟩
  obtain rfl : t = u := Host.Outcome.next.inj hu
  exact hok

/-- A command word leaves `ERR = 0` exactly when `ERR` was 0 and it reports `OK`. -/
theorem faultFree_iff_of_command {s t : State} {w : Word} {rest : List HostInput}
    (hin : s.inputs = .command w :: rest) (hstep : step s = .next t) :
    FaultFree t ↔ FaultFree s ∧ t.last = .ok := by
  obtain ⟨hok, herr⟩ | ⟨hne, ht⟩ := commandEndsInSuccessOrFault s w rest t hin hstep
  · simp [FaultFree, hok, herr]
  · have herr : t.err = true := by rw [ht]
    simp [FaultFree, hne, herr]

/-- Over a list without reset, `ERR` ends at 0 exactly when it began so and every command reported `OK`. -/
theorem faultFree_run_iff {l : List HostInput} {s t : State} (hin : s.inputs = l) (hreset : .reset ∉ l)
    (hrun : Sys2Proof.core.run l.length s = .next t) :
    FaultFree t ↔ FaultFree s ∧ FirstStepsReportOk l.length s := by
  induction l generalizing s with
  | nil =>
    obtain rfl : s = t := Host.Outcome.next.inj hrun
    exact (and_iff_left (firstStepsReportOk_zero s)).symm
  | cons x rest ih =>
    obtain ⟨hx, hrest⟩ := not_or.mp (mt List.mem_cons.mpr hreset)
    cases x with
    | reset => exact absurd rfl hx
    | command w =>
      obtain ⟨s', hstep⟩ := everyStepAnswersANextState s
      obtain ⟨-, htail⟩ := stepKeepsParamsAndTakesOneInput s s' hstep
      have hin' : s'.inputs = rest := htail.trans (by rw [hin, List.tail_cons])
      have hrun' := (run_succ_of_step hstep rest.length).symm.trans hrun
      rw [ih hin' hrest hrun', faultFree_iff_of_command hin hstep, List.length_cons,
        firstStepsReportOk_succ hstep, and_assoc]

/-- Settles O50: the run takes one input at each step, and what one step does to the invariant and to `ERR` carries over
to the run. -/
theorem runsEndAndAreFaultFreeWhenEveryCommandIs : Obligations.RunsEndAndAreFaultFreeWhenEveryCommandIs := by
  unfold Obligations.RunsEndAndAreFaultFreeWhenEveryCommandIs
  intro s l
  obtain ⟨t, hrun, hend⟩ := run_exhausts_inputs (s := { s with inputs := l }) rfl
  exact ⟨t, hrun, hend, fun hinv => run_keeps stepKeepsStateInv (hinv.setInputs l) hrun,
    fun hreset => faultFree_run_iff rfl hreset hrun⟩

end Sys2Proof.Machine
end
